-- ==== Sys2Proof/Word.lean ====
section
/-! DEFINITION. The word types of the engine: the bytes and 16-bit quantities of the wire (R14, R53), the 48-bit
command word (R77) and the 256-bit address mask (R36). The operations on them stand in Decode.lean and Machine/. -/

namespace Sys2Proof

/-- `u8` of R14: one byte of the wire, of `BUF` or of a table. -/
abbrev Byte := BitVec 8

/-- `u16` of R14: a checksum value, a register address, a register count or a write value. -/
abbrev Half := BitVec 16

/-- The 48-bit command word `CMD` of R77. -/
abbrev CmdWord := BitVec 48

/-- `ADDR_MASK` of R36: bit `a` is 1 iff device address `a` is in `ADDRS`. -/
abbrev AddrMask := BitVec 256

end Sys2Proof
end

