-- ==== Sys2Proof/Config.lean ====
section
/-! DEFINITION. What the spec fixes for every engine (the constants of R8, R9, R10), the one parameter an implementation
fixes (`P_CRC_MAXLEN`, R12, a constant with no body) and the address set that `State.reset` names. -/

namespace Sys2Proof.Config

/-- `FC_READ` (R8): the function code of a read request and of a read response. -/
def fcRead : Byte := 0x03#8

/-- `FC_WRITE` (R8): the function code of a single-register write request. -/
def fcWrite : Byte := 0x06#8

/-- `HDR_LEN` (R8): address, function code and byte count. -/
def hdrLen : Nat := 3

/-- `CRC_LEN` (R8). -/
def crcLen : Nat := 2

/-- `FRAME_OVERHEAD` (R8): the total length of a read response is its byte count plus 5. -/
def frameOverhead : Nat := 5

/-- `REQ_LEN` (R8). -/
def reqLen : Nat := 8

/-- `IMU_PAYLOAD_LEN` (R8). -/
def imuPayloadLen : Nat := 24

/-- `CRC_INIT_HI` (R8). -/
def crcInitHi : Byte := 0xFF#8

/-- `CRC_INIT_LO` (R8). -/
def crcInitLo : Byte := 0xFF#8

/-- `CRC_POLY` (R8), reflected. -/
def crcPoly : Half := 0xA001#16

/-- `BUF_CAP` (R9): the capacity of the accumulation buffer, the longest total frame length. -/
def bufCap : Nat := 260

/-- `REG_UNLOCK` (R10). UNVERIFIED: the source's literal is unaudited (N12); log entry 16. -/
def regUnlock : Half := 0x0069#16

/-- `KEY_UNLOCK` (R10). UNVERIFIED: log entry 16. -/
def keyUnlock : Half := 0xB588#16

/-- `REG_SAVE` (R10). UNVERIFIED: log entry 16. -/
def regSave : Half := 0x0000#16

/-- `VAL_SAVE` (R10). UNVERIFIED: log entry 16. -/
def valSave : Half := 0x0000#16

/-- The nominal `P_SETTLE` of R13, in milliseconds: the host's wait, which the engine never sees. -/
def nominalSettleMs : Nat := 100

/-- `P_CRC_MAXLEN` of R12 and R204: `some m` where the implementation refuses checksum requests longer than `m` bytes,
`none` where it never does. The spec leaves it open, so it has no body; that it is at least 258 is kept where it is
tested (`crcLengthAllowed`). Log entry 8. -/
opaque crcMaxLen : Option Nat

/-- The least value R12 allows `P_CRC_MAXLEN`. -/
def crcMaxLenFloor : Nat := 258

/-- The address set that `State.reset` is given. DESIGN CHOICE (unsafe, log entry 7): R7 leaves the set to the caller;
{0x50} is the set the spec's own vectors start from. The reset input carries any set. -/
def resetAddrs : AddrMask := 1#256 <<< 0x50

end Sys2Proof.Config
end

