-- ==== Sys2Proof/Syntax.lean ====
section
/-! DEFINITION. What the engine can be asked: the eight operations of R6 and R78 and the five wire frame kinds of R82, one
constructor per row of spec/opcode_table.json, and the two encodings they come in (a command word, or bytes of the wire). -/

namespace Sys2Proof

/-- The rows of the opcode table. An operation's fields are those its command word uses (R78); the byte operand of
`CHK.CRC` and the frame operand of `PRS.WORD` and `PRS.CLASS` come on the data channel (R77). A wire frame's fields are
those of R71 and R72. -/
inductive Instr where
  /-- `CHK.CRC` (R102): `len` is the data length L. -/
  | chkCrc (len : Half)
  /-- `ASM.FEED` (R121): `b` is the byte to feed. -/
  | asmFeed (b : Byte)
  /-- `PRS.WORD` (R153): `k` is the field index. -/
  | prsWord (k : Half)
  /-- `PRS.CLASS` (R155). -/
  | prsClass
  /-- `ENC.READ` (R170). -/
  | encRead (a : Byte) (reg count : Half)
  /-- `ENC.WRITE` (R171). -/
  | encWrite (a : Byte) (reg value : Half)
  /-- `ENC.UNLOCK` (R172). -/
  | encUnlock (a : Byte)
  /-- `ENC.SAVE` (R173). -/
  | encSave (a : Byte)
  /-- `WIRE.READ_REQ` (R72, R82): an 8-byte read request on the wire, `crc` its checksum field. -/
  | wireReadReq (a : Byte) (reg count crc : Half)
  /-- `WIRE.WRITE_REQ` (R72, R82): an 8-byte write request other than the two below. -/
  | wireWriteReq (a : Byte) (reg value crc : Half)
  /-- `WIRE.UNLOCK` (R72, R82): the unlock request. -/
  | wireUnlock (a : Byte) (crc : Half)
  /-- `WIRE.SAVE` (R72, R82): the save request. -/
  | wireSave (a : Byte) (crc : Half)
  /-- `WIRE.READ_RESP` (R71, R82): a read response; `byte_count` is the payload's length. -/
  | wireReadResp (a : Byte) (payload : List Byte) (crc : Half)
deriving DecidableEq, Repr

/-- The two wire formats: R72 (`WIRE8`) and R71 (`WIRE_RESP`). -/
inductive WireFormat where
  /-- The 8-byte request of R72. -/
  | request
  /-- The variable-length read response of R71. -/
  | response
deriving DecidableEq, Repr

/-- An encoded instruction: a command word (R77), or the bytes of a frame in the order the wire carries them (R70). The
format is its sender's; the assembler never sees it (R76; log entry 12). -/
inductive Code where
  | command (w : CmdWord)
  | wire (f : WireFormat) (bytes : List Byte)
deriving DecidableEq, Repr

end Sys2Proof
end

