-- ==== Sys2Proof/WellFormed.lean ====
section
/-! DEFINITION. Which instructions an encoding stands for. Operand widths are enforced by the types (R77, R203), so two
checks remain, both of wire frames. -/

namespace Sys2Proof

/-- The pairs of register and value that make a write request the unlock or the save request (R172, R173): such a request
is a `WIRE.UNLOCK` or `WIRE.SAVE`, not a `WIRE.WRITE_REQ` (log entry 11). -/
def isControlWrite (reg value : Half) : Bool :=
  (reg == Config.regUnlock && value == Config.keyUnlock) || (reg == Config.regSave && value == Config.valSave)

/-- Well-formed instructions: a `WIRE.WRITE_REQ` is no control request, and a read response's payload length fits its
`byte_count` (R71: 0..255). -/
def Instr.wf : Instr → Bool
  | .chkCrc _ => true
  | .asmFeed _ => true
  | .prsWord _ => true
  | .prsClass => true
  | .encRead _ _ _ => true
  | .encWrite _ _ _ => true
  | .encUnlock _ => true
  | .encSave _ => true
  | .wireReadReq _ _ _ _ => true
  | .wireWriteReq _ reg value _ => !isControlWrite reg value
  | .wireUnlock _ _ => true
  | .wireSave _ _ => true
  | .wireReadResp _ payload _ => decide (payload.length ≤ 255)

end Sys2Proof
end

