-- ==== Sys2Proof/Decode.lean ====
section
/-! DEFINITION. The byte-order helpers (R14, R52, R74), the decoder of command words (R77, R78, R80) and of wire frames (R71,
R72), total and rejecting by name, and after it the encoder, from the same tables. -/

namespace Sys2Proof

/-! ### Byte order (R14, R52, R74) -/

/-- `hi8` of R14. -/
def hi8 (v : Half) : Byte := v.extractLsb' 8 8

/-- `lo8` of R14. -/
def lo8 (v : Half) : Byte := v.extractLsb' 0 8

/-- `be16` of R14: the high byte comes first. -/
def be16 (h l : Byte) : Half := (h.setWidth 16 <<< 8) ||| l.setWidth 16

/-! ### The command word (R77) -/

/-- `OP`, bits 47:44. -/
def cmdOp (w : CmdWord) : BitVec 4 := w.extractLsb' 44 4

/-- `RSV`, bits 43:40. -/
def cmdRsv (w : CmdWord) : BitVec 4 := w.extractLsb' 40 4

/-- `A`, bits 39:32. -/
def cmdA (w : CmdWord) : Byte := w.extractLsb' 32 8

/-- `X`, bits 31:16. -/
def cmdX (w : CmdWord) : Half := w.extractLsb' 16 16

/-- `Y`, bits 15:0. -/
def cmdY (w : CmdWord) : Half := w.extractLsb' 0 16

/-- The assigned operation codes of R78. -/
inductive Op where
  | chkCrc | asmFeed | prsWord | prsClass | encRead | encWrite | encUnlock | encSave
deriving DecidableEq, Repr

/-- The operation an `OP` value stands for; 0x8 to 0xF are reserved (R78). -/
def opOfBits (b : BitVec 4) : Option Op :=
  match b.toNat with
  | 0 => some .chkCrc
  | 1 => some .asmFeed
  | 2 => some .prsWord
  | 3 => some .prsClass
  | 4 => some .encRead
  | 5 => some .encWrite
  | 6 => some .encUnlock
  | 7 => some .encSave
  | _ => none

/-- Why an encoding stands for no instruction: the two reasons of R80 and R203 for command words, and two for bytes of the
wire that have the shape of no frame kind (R71, R72). -/
inductive Reject where
  /-- `OP` is 0x8 to 0xF (R80). -/
  | reservedOp
  /-- `RSV` is not 0, or a field the operation does not use is not 0 (R80). -/
  | reservedField
  /-- The number of bytes is not the format's (8 for a request; `byte_count + 5` for a response). -/
  | wireLength
  /-- The function code is not one the format has (R73). -/
  | wireFunction
deriving DecidableEq, Repr

/-- `i`, if the fields that its operation does not use are 0 (R77, R80). -/
def requireZero (unusedAreZero : Bool) (i : Instr) : Except Reject Instr :=
  if unusedAreZero then .ok i else .error .reservedField

/-- The operation and its operands (the "fields used" column of R78). -/
def assemble (op : Op) (a : Byte) (x y : Half) : Except Reject Instr :=
  match op with
  | .chkCrc => requireZero (a == 0#8 && y == 0#16) (.chkCrc x)
  | .asmFeed => requireZero (x == 0#16 && y == 0#16) (.asmFeed a)
  | .prsWord => requireZero (a == 0#8 && y == 0#16) (.prsWord x)
  | .prsClass => requireZero (a == 0#8 && x == 0#16 && y == 0#16) .prsClass
  | .encRead => .ok (.encRead a x y)
  | .encWrite => .ok (.encWrite a x y)
  | .encUnlock => requireZero (x == 0#16 && y == 0#16) (.encUnlock a)
  | .encSave => requireZero (x == 0#16 && y == 0#16) (.encSave a)

/-- A command word: the reserved operation codes are rejected first, then the reserved fields (R80, and the order of
R203). -/
def decodeCommand (w : CmdWord) : Except Reject Instr :=
  match opOfBits (cmdOp w) with
  | none => .error .reservedOp
  | some op => if cmdRsv w = 0#4 then assemble op (cmdA w) (cmdX w) (cmdY w) else .error .reservedField

/-! ### Wire frames (R71, R72) -/

/-- The write request with these fields: the unlock and save requests are rows of their own (R82; log entry 11). -/
def writeRequest (a : Byte) (reg value crc : Half) : Instr :=
  if reg = Config.regUnlock ∧ value = Config.keyUnlock then .wireUnlock a crc
  else if reg = Config.regSave ∧ value = Config.valSave then .wireSave a crc
  else .wireWriteReq a reg value crc

/-- The 8-byte request format of R72. The checksum field is read, not tested: R72 states what an encoder writes there. -/
def decodeWireRequest (bytes : List Byte) : Except Reject Instr :=
  match bytes with
  | [a, f, rh, rl, yh, yl, ch, cl] =>
    if f = Config.fcRead then .ok (.wireReadReq a (be16 rh rl) (be16 yh yl) (be16 ch cl))
    else if f = Config.fcWrite then .ok (writeRequest a (be16 rh rl) (be16 yh yl) (be16 ch cl))
    else .error .wireFunction
  | _ => .error .wireLength

/-- The read response format of R71: `byte_count + 5` bytes. -/
def decodeWireResponse (bytes : List Byte) : Except Reject Instr :=
  match bytes with
  | a :: f :: c :: rest =>
    if f = Config.fcRead then
      if rest.length = c.toNat + 2 then
        .ok (.wireReadResp a (rest.take c.toNat) (be16 (rest.getD c.toNat 0#8) (rest.getD (c.toNat + 1) 0#8)))
      else .error .wireLength
    else .error .wireFunction
  | _ => .error .wireLength

/-- The decoder: total on any command word and any bytes. -/
def decode : Code → Except Reject Instr
  | .command w => decodeCommand w
  | .wire .request bytes => decodeWireRequest bytes
  | .wire .response bytes => decodeWireResponse bytes

/-! ### The encoder -/

/-- The command word with these fields and `RSV` 0 (R77). -/
def encodeCommand (op : BitVec 4) (a : Byte) (x y : Half) : CmdWord := op ++ 0#4 ++ a ++ x ++ y

/-- The request format of R72, byte 0 first. -/
def requestBytes (a f : Byte) (x y crc : Half) : List Byte :=
  [a, f, hi8 x, lo8 x, hi8 y, lo8 y, hi8 crc, lo8 crc]

/-- The read response format of R71, byte 0 first. -/
def responseBytes (a : Byte) (payload : List Byte) (crc : Half) : List Byte :=
  [a, Config.fcRead, BitVec.ofNat 8 payload.length] ++ payload ++ [hi8 crc, lo8 crc]

/-- The encoding of an instruction (R71, R72, R78); a field the operation does not use is 0 (R77). -/
def encode : Instr → Code
  | .chkCrc len => .command (encodeCommand 0x0#4 0#8 len 0#16)
  | .asmFeed b => .command (encodeCommand 0x1#4 b 0#16 0#16)
  | .prsWord k => .command (encodeCommand 0x2#4 0#8 k 0#16)
  | .prsClass => .command (encodeCommand 0x3#4 0#8 0#16 0#16)
  | .encRead a reg count => .command (encodeCommand 0x4#4 a reg count)
  | .encWrite a reg value => .command (encodeCommand 0x5#4 a reg value)
  | .encUnlock a => .command (encodeCommand 0x6#4 a 0#16 0#16)
  | .encSave a => .command (encodeCommand 0x7#4 a 0#16 0#16)
  | .wireReadReq a reg count crc => .wire .request (requestBytes a Config.fcRead reg count crc)
  | .wireWriteReq a reg value crc => .wire .request (requestBytes a Config.fcWrite reg value crc)
  | .wireUnlock a crc => .wire .request (requestBytes a Config.fcWrite Config.regUnlock Config.keyUnlock crc)
  | .wireSave a crc => .wire .request (requestBytes a Config.fcWrite Config.regSave Config.valSave crc)
  | .wireReadResp a payload crc => .wire .response (responseBytes a payload crc)

/-! ### The opcode table's numbering of an instruction's bits -/

/-- The `n` bytes of `w` read as one number, the most significant byte first: the wire rows of the opcode table number
byte 0 as the highest bits (R72 "byte 0 leftmost", R82 "with byte 0 at the left"). -/
def bytesOfNat (n w : Nat) : List Byte :=
  (List.range n).map fun i => BitVec.ofNat 8 (w >>> (8 * (n - 1 - i)))

/-- The encoding whose bits the opcode table numbers as `w`: a command word has 48 bits, a request 64, the header of a read
response 24. The bytes of a response after its header are 0 (log entry 10). -/
def tableCode (nbits w : Nat) : Option Code :=
  if nbits = 48 then some (.command (BitVec.ofNat 48 w))
  else if nbits = 64 then some (.wire .request (bytesOfNat 8 w))
  else if nbits = 24 then
    some (.wire .response (bytesOfNat 3 w ++ List.replicate (w % 256 + Config.crcLen) 0#8))
  else none

/-- The instruction the decoder reads from the encoding that `tableCode` lays out. -/
def decodeTableWord (nbits w : Nat) : Option Instr :=
  match tableCode nbits w with
  | none => none
  | some code =>
    match decode code with
    | .ok i => some i
    | .error _ => none

end Sys2Proof
end

