-- ==== Sys2Proof/Machine/State.lean ====
section
/-! DEFINITION. The machine's state: the assembler instances (BUF and ADDR_MASK of each, R32, R36, R41) and the model's own
fields for the command interface (the host's requests, the data channel and the result, R77). The engine has no program
counter, registers, flags or modes (R30, R31, R35, R208). -/

namespace Sys2Proof.Machine

/-- One assembler instance (R41): all the mutable state the spec gives it. -/
structure Instance where
  /-- `BUF` (R32): the accumulation buffer, index 0 the oldest byte (R50). -/
  buf : List Byte
  /-- `ADDR_MASK` (R36): the configured device-address set. -/
  addrMask : AddrMask
deriving DecidableEq, Repr

/-- The refusal reasons of R203, in the order in which the first that applies is reported. -/
inductive Reason where
  /-- A command word with `OP` in 0x8..0xF (R80). -/
  | reservedOp
  /-- A command word with `RSV` not 0, or a field its operation does not use not 0 (R80). -/
  | reservedField
  /-- A parser operand that is not well-formed (R152). -/
  | malformedFrame
  /-- A field index with no field (R153). -/
  | fieldIndex
  /-- A checksum request that R204 refuses. -/
  | crcLength
  /-- `ASM.FEED` on an instance that has never been reset (R233). -/
  | notReset
deriving DecidableEq, Repr

/-- The result of `PRS.CLASS` (R155). -/
inductive PayloadClass where
  | generic
  | imu
deriving DecidableEq, Repr

/-- What the engine answers to one request (the results of R77 and R78). -/
inductive Answer where
  /-- No result: reset has none (R230). -/
  | nothing
  /-- `CHK.CRC`: the checksum value. -/
  | checksum (v : Half)
  /-- `ASM.FEED`: NONE, or the frame emitted (R120). -/
  | frame (f : Option (List Byte))
  /-- `PRS.WORD`: an `int` in −32768..32767. -/
  | word (w : Int)
  /-- `PRS.CLASS`. -/
  | payloadClass (c : PayloadClass)
  /-- The `ENC` operations: the request's 8 bytes. -/
  | request (bytes : List Byte)
  /-- `ASM.FEEDN` (R131): the frames emitted, each with the index of the byte whose feed returned it. -/
  | emissions (es : List (Nat × List Byte))
  /-- The request is refused: it has no result (R203; log entry 3). -/
  | refused (r : Reason)
deriving DecidableEq, Repr

/-- What the host gives the engine in one step: the reset input with its address set (R230), or an encoding with its data
channel (R77), each at the interface of one instance (R41; log entry 6). -/
inductive Request where
  | reset (port : Nat) (addrs : AddrMask)
  | issue (port : Nat) (code : Code) (data : List Byte)
deriving DecidableEq, Repr

/-- The state. `instances` is the spec's; the other four fields are the model's own (log entries 1, 2, 6, 19). -/
structure State where
  /-- The instances by port, ports strictly rising; a port that is not listed has never been reset (R41, R211, R233). -/
  instances : List (Nat × Instance)
  /-- The port at which the request now performed was issued. -/
  port : Nat
  /-- The data channel of the request now performed (R77). -/
  data : List Byte
  /-- The requests the host will issue, in issue order (R61). The engine itself has no input queue (R245). -/
  host : List Request
  /-- The result of the last request performed. -/
  answer : Answer
deriving DecidableEq, Repr

/-- Why the machine stops with a fault. There is no constructor: the engine raises no exception (R200), every anomaly is
handled by resynchronization (R201), and no read beyond `len(BUF)` is ever issued (R50). Safe (log entry 14). -/
inductive Fault where
deriving DecidableEq, Repr

/-- Why the model gives an instruction no meaning. A request the SPEC refuses (R203) is not this: it is a next state whose
answer is the reason. -/
inductive Refusal where
  /-- Raised by an arm of `exec` for an instruction that has no meaning yet; no arm raises it. Safe. -/
  | notModelled (mnemonic : String)
deriving DecidableEq, Repr

/-- The machine after one instance, at port 0, was reset with the address set `addrs`, and nothing else happened (R42,
R230, R231). -/
def State.resetWith (addrs : AddrMask) : State :=
  { instances := [(0, { buf := [], addrMask := addrs })]
    port := 0
    data := []
    host := []
    answer := .nothing }

/-- The machine right after reset: `BUF = []` and `ADDRS` the construction argument (R42, R231), here the set that log
entry 7 names. -/
def State.reset : State := State.resetWith Config.resetAddrs

end Sys2Proof.Machine
end

