-- ==== Sys2Proof/Machine/Ops.lean ====
section
/-! DEFINITION. The named operations over the state: reading a byte of an address space (R16, R50), the two ways BUF changes
(R33), the instance at the port, and the two ways a request ends: with a result (R77) or refused (R203). There is no
taking of an exception and no return from one: nothing is ever raised (R200, R206; log entry 14). -/

namespace Sys2Proof.Machine

/-! ### Address spaces (R50) -/

/-- The engine's three address spaces. -/
inductive Space where
  | buf
  | romHi
  | romLo
deriving DecidableEq, Repr

/-- The contents of a space, for an instance whose `BUF` is `buf`. -/
def spaceBytes (buf : List Byte) : Space → List Byte
  | .buf => buf
  | .romHi => romHi
  | .romLo => romLo

/-- `MemRead(space, addr, 1)` of R16: `none` outside the space, where no rule ever reads (R50). -/
def memRead (buf : List Byte) (space : Space) (addr : Nat) : Option Byte := (spaceBytes buf space)[addr]?

/-- A table entry: `MemRead(ROM_HI, idx, 1)` or `MemRead(ROM_LO, idx, 1)` (R101). A `u8` index is always inside a table. -/
def romByte (space : Space) (idx : Byte) : Byte := (memRead [] space idx.toNat).getD 0#8

/-- `s[i]` of R15, for an index inside the sequence: each use tests the length first. -/
def byteAt (s : List Byte) (i : Nat) : Byte := (memRead s .buf i).getD 0#8

/-- `BufAppend(b)` of R33. -/
def bufAppend (buf : List Byte) (b : Byte) : List Byte := buf ++ [b]

/-- `BufDropFront(k)` of R33: the rest is renumbered from 0. -/
def bufDropFront (k : Nat) (buf : List Byte) : List Byte := buf.drop k

/-! ### Instances by port (R41, R211) -/

/-- The instance at a port; `none` where it was never reset (R233). -/
def findInstance (port : Nat) : List (Nat × Instance) → Option Instance
  | [] => none
  | (q, inst) :: rest => if port = q then some inst else findInstance port rest

/-- Store the instance at a port, keeping ports strictly rising. -/
def putInstance (port : Nat) (inst : Instance) : List (Nat × Instance) → List (Nat × Instance)
  | [] => [(port, inst)]
  | (q, old) :: rest =>
    if port < q then (port, inst) :: (q, old) :: rest
    else if port = q then (port, inst) :: rest
    else (q, old) :: putInstance port inst rest

/-- The instance at a port of the state. -/
def State.instanceAt (s : State) (port : Nat) : Option Instance := findInstance port s.instances

/-- The instance at whose interface the request now performed was issued. -/
def State.current (s : State) : Option Instance := s.instanceAt s.port

/-- The state with this instance at a port. -/
def State.setInstance (s : State) (port : Nat) (inst : Instance) : State :=
  { s with instances := putInstance port inst s.instances }

/-! ### How a request ends -/

/-- The request ends with this result (R77). -/
def State.reply (s : State) (a : Answer) : State := { s with answer := a }

/-- `refuse` of R16 and R203: no result and no change of `BUF`; the reason is reported, and the next request finds the
engine as it was (log entries 3 and 17). -/
def State.refuse (s : State) (r : Reason) : State := { s with answer := .refused r }

end Sys2Proof.Machine
end

