-- ==== Sys2Proof/Machine/Operands.lean ====
section
/-! DEFINITION. The fields of a frame operand (R74, R75, R150, R152) and the signed reading of 16 bits (R14). -/

namespace Sys2Proof.Machine

/-- `sint16` of R14: `v` if `v < 32768`, else `v - 65536`. -/
def sint16 (v : Half) : Int := if v.toNat < 32768 then (v.toNat : Int) else (v.toNat : Int) - 65536

/-- The 16-bit field at byte offsets `i` and `i + 1` (R74). -/
def fieldAt (s : List Byte) (i : Nat) : Half := be16 (byteAt s i) (byteAt s (i + 1))

/-- `byte_count` (R71, R150). -/
def byteCount (f : List Byte) : Nat := (byteAt f 2).toNat

/-- The total length a frame's third byte announces: `byte_count + 5`, without wrap-around (R124). -/
def expectedLength (f : List Byte) : Nat := byteCount f + Config.frameOverhead

/-- `payload` (R150): the bytes from offset 3 to `n - 2`. -/
def payloadOf (f : List Byte) : List Byte := (f.drop Config.hdrLen).take (f.length - Config.frameOverhead)

/-- The checksum field of a frame: its last two bytes (R74, R150). -/
def checksumField (f : List Byte) : Half := fieldAt f (f.length - Config.crcLen)

/-- The record of R150: a view of the frame's bytes. -/
structure FrameView where
  address : Byte
  functionCode : Byte
  byteCount : Byte
  payload : List Byte
  checksum : Half
deriving DecidableEq, Repr

/-- The fields of a frame (R150). -/
def viewFrame (f : List Byte) : FrameView :=
  { address := byteAt f 0
    functionCode := byteAt f 1
    byteCount := byteAt f 2
    payload := payloadOf f
    checksum := checksumField f }

/-- `nw(F)` of R152: the number of payload fields. -/
def fieldCount (f : List Byte) : Nat := byteCount f / 2

/-- Payload field `k` as a signed value (R75, R153): the payload's bytes `2k` and `2k + 1`. -/
def payloadField (f : List Byte) (k : Nat) : Int := sint16 (fieldAt (payloadOf f) (2 * k))

end Sys2Proof.Machine
end

