-- ==== Sys2Proof/Machine/Chk.lean ====
section
/-! DEFINITION. The checksum unit CHK: the table-driven checksum (R101, R102) and `CHK.CRC`. -/

namespace Sys2Proof.Machine

/-- The two accumulators, which exist only during one evaluation (R39). -/
structure Acc where
  hi : Byte
  lo : Byte
deriving DecidableEq, Repr

/-- Both accumulators start at 0xFF (R102). -/
def accInit : Acc := { hi := Config.crcInitHi, lo := Config.crcInitLo }

/-- `CRC_STEP` (R101). -/
def crcStep (acc : Acc) (b : Byte) : Acc :=
  { hi := acc.lo ^^^ romByte .romHi (acc.hi ^^^ b), lo := romByte .romLo (acc.hi ^^^ b) }

/-- The accumulators after the bytes of `s`, first byte first (R102). -/
def crcAcc (acc : Acc) (s : List Byte) : Acc := s.foldl crcStep acc

/-- The checksum value (R102): `(high_accumulator << 8) | low_accumulator`, in the engine's convention (R104). -/
def crc (s : List Byte) : Half := be16 (crcAcc accInit s).hi (crcAcc accInit s).lo

/-- The two checksum bytes as the wire carries them: high byte first (R52, R104). -/
def crcBytes (s : List Byte) : List Byte := [hi8 (crc s), lo8 (crc s)]

/-- Whether the implementation performs a checksum request of this length (R12, R204): always up to 258 bytes, beyond that
up to its `P_CRC_MAXLEN`, if it sets one (log entry 8). -/
def crcLengthAllowed (len : Nat) : Bool :=
  decide (len ≤ Config.crcMaxLenFloor) ||
    (match Config.crcMaxLen with
     | none => true
     | some m => decide (len ≤ m))

/-- `CHK.CRC` (R102): the checksum of the first `len` bytes of the data channel. Refused where the data has fewer than
`len` bytes (R107, R204) or the implementation takes no request of that length (R204). -/
def execChkCrc (len : Half) (s : State) : Host.Outcome State Fault Refusal :=
  if s.data.length < len.toNat then .next (s.refuse .crcLength)
  else if crcLengthAllowed len.toNat then .next (s.reply (.checksum (crc (s.data.take len.toNat))))
  else .next (s.refuse .crcLength)

end Sys2Proof.Machine
end

