-- ==== Sys2Proof/Machine/Flags.lean ====
section
/-! DEFINITION. The engine has no flags or condition codes (R35): an operation's outcome is its result. What stands here are
the conditions the operations test: membership of the address set (R123), the checksum test (R105) and the
well-formedness of a parser operand (R152). -/

namespace Sys2Proof.Machine

/-- `a ∈ ADDRS` (R36, R123). -/
def inAddrs (mask : AddrMask) (a : Byte) : Bool := mask.getLsbD a.toNat

/-- `CRC_OK(F)` (R105), for a candidate of at least two bytes. -/
def crcOk (f : List Byte) : Bool := crc (f.take (f.length - Config.crcLen)) == checksumField f

/-- `WF(F)` (R152): the address, the function code and the checksum are not tested again. -/
def wellFormedFrame (f : List Byte) : Bool :=
  decide (Config.frameOverhead ≤ f.length) && decide (f.length = expectedLength f)

end Sys2Proof.Machine
end

