-- ==== Sys2Proof/Machine/Asm.lean ====
section
/-! DEFINITION. The assembler ASM: the settle loop (R122 to R129, R202), `ASM.FEED` (R121) and the feeding of several bytes
(`ASM.FEEDN`, R131). -/

namespace Sys2Proof.Machine

/-- What the tests of one iteration of the settle loop say: the rows of R202, and the emission. -/
inductive Verdict where
  /-- Row 1: nothing is held. -/
  | empty
  /-- Row 2: the first byte is no configured address (R123). -/
  | wrongAddress
  /-- Row 3: the function code is not yet tested (R125). -/
  | functionPending
  /-- Row 4: the second byte is not 0x03 (R125). -/
  | wrongFunction
  /-- Row 5: the candidate has not reached its expected length (R126). -/
  | incomplete
  /-- Row 6: the checksum does not match (R129). -/
  | badChecksum
  /-- Every test passed: the first `n` bytes are a frame (R127, R128). -/
  | emit (n : Nat)
deriving DecidableEq, Repr

/-- The tests of R202, in their order, on what `BUF` holds. -/
def verdict (mask : AddrMask) (buf : List Byte) : Verdict :=
  if buf.length = 0 then .empty
  else if !inAddrs mask (byteAt buf 0) then .wrongAddress
  else if buf.length ≤ 2 then .functionPending
  else if byteAt buf 1 ≠ Config.fcRead then .wrongFunction
  else if buf.length < expectedLength buf then .incomplete
  else if crcOk (buf.take (expectedLength buf)) then .emit (expectedLength buf)
  else .badChecksum

/-- What the settle loop leaves: the frame it emitted, if any, and `BUF`. -/
structure Settled where
  emitted : Option (List Byte)
  buf : List Byte
deriving DecidableEq, Repr

/-- `SETTLE` (R122). Each `continue` follows `BufDropFront(1)` (R123, R125, R129), so the loop recurses on the rest of
`BUF`; an emission removes the frame's bytes and keeps the remainder (R127, R128). -/
def settle (mask : AddrMask) : List Byte → Settled
  | [] => { emitted := none, buf := [] }
  | b :: rest =>
    match verdict mask (b :: rest) with
    | .empty => { emitted := none, buf := b :: rest }
    | .wrongAddress => settle mask rest
    | .functionPending => { emitted := none, buf := b :: rest }
    | .wrongFunction => settle mask rest
    | .incomplete => { emitted := none, buf := b :: rest }
    | .badChecksum => settle mask rest
    | .emit n => { emitted := some ((b :: rest).take n), buf := bufDropFront n (b :: rest) }

/-- `ASM.FEED` on a buffer (R121): append, then settle. -/
def feed (mask : AddrMask) (buf : List Byte) (b : Byte) : Settled := settle mask (bufAppend buf b)

/-- `ASM.FEED` (R121): refused on an instance that was never reset (R233), else the result is NONE or the frame, and only
`BUF` is written. -/
def execAsmFeed (b : Byte) (s : State) : Host.Outcome State Fault Refusal :=
  match s.current with
  | none => .next (s.refuse .notReset)
  | some inst =>
    .next ((s.setInstance s.port { inst with buf := (feed inst.addrMask inst.buf b).buf }).reply
      (.frame (feed inst.addrMask inst.buf b).emitted))

/-! ### Feeding several bytes (R131, R132) -/

/-- What feeding several bytes leaves: the emissions, each with its byte's index, and `BUF`. -/
structure Fed where
  emissions : List (Nat × List Byte)
  buf : List Byte
deriving DecidableEq, Repr

/-- Put the emission of the byte at index `i`, if there is one, before the later ones (R131). -/
def consEmission (i : Nat) (emitted : Option (List Byte)) (later : List (Nat × List Byte)) : List (Nat × List Byte) :=
  match emitted with
  | none => later
  | some f => (i, f) :: later

/-- `ASM.FEED` of each byte in order (R131); `i` is the index of the first. -/
def feedMany (mask : AddrMask) (i : Nat) (buf : List Byte) : List Byte → Fed
  | [] => { emissions := [], buf := buf }
  | b :: rest =>
    let r := feed mask buf b
    let later := feedMany mask (i + 1) r.buf rest
    { emissions := consEmission i r.emitted later.emissions, buf := later.buf }

/-- Bytes arriving on the stream at the port (R70, R131, R132): fed one after another; no bytes do nothing (R131). -/
def feedChunk (bytes : List Byte) (s : State) : State :=
  match s.current with
  | none => if bytes.isEmpty then s.reply (.emissions []) else s.refuse .notReset
  | some inst =>
    (s.setInstance s.port { inst with buf := (feedMany inst.addrMask 0 inst.buf bytes).buf }).reply
      (.emissions (feedMany inst.addrMask 0 inst.buf bytes).emissions)

end Sys2Proof.Machine
end

