-- ==== Sys2Proof/Machine/Enc.lean ====
section
/-! DEFINITION. The command encoder ENC: the 8-byte requests of R170 to R173. The encoders check no operand (R174) and hold
no state (R176). -/

namespace Sys2Proof.Machine

/-- A request (R72): the six bytes of the fields, stamped with their checksum, high byte first. -/
def buildRequest (a f : Byte) (x y : Half) : List Byte :=
  [a, f, hi8 x, lo8 x, hi8 y, lo8 y] ++ crcBytes [a, f, hi8 x, lo8 x, hi8 y, lo8 y]

/-- `ENC.READ` (R170). -/
def execEncRead (a : Byte) (reg count : Half) (s : State) : Host.Outcome State Fault Refusal :=
  .next (s.reply (.request (buildRequest a Config.fcRead reg count)))

/-- `ENC.WRITE` (R171). -/
def execEncWrite (a : Byte) (reg value : Half) (s : State) : Host.Outcome State Fault Refusal :=
  .next (s.reply (.request (buildRequest a Config.fcWrite reg value)))

/-- `ENC.UNLOCK` (R172): the write of `KEY_UNLOCK` to `REG_UNLOCK`. -/
def execEncUnlock (a : Byte) (s : State) : Host.Outcome State Fault Refusal :=
  .next (s.reply (.request (buildRequest a Config.fcWrite Config.regUnlock Config.keyUnlock)))

/-- `ENC.SAVE` (R173): the write of `VAL_SAVE` to `REG_SAVE`. -/
def execEncSave (a : Byte) (s : State) : Host.Outcome State Fault Refusal :=
  .next (s.reply (.request (buildRequest a Config.fcWrite Config.regSave Config.valSave)))

end Sys2Proof.Machine
end

