-- ==== Sys2Proof/Machine/Prs.lean ====
section
/-! DEFINITION. The frame parser PRS: `PRS.WORD` (R153), `PRS.CLASS` (R155), the names of the fields of a 24-byte payload
(R154) and the fields handed over of a generic frame (R157). -/

namespace Sys2Proof.Machine

/-- `PRS.WORD` (R153): payload field `k` of the frame on the data channel, as a signed 16-bit integer. -/
def execPrsWord (k : Half) (s : State) : Host.Outcome State Fault Refusal :=
  if !wellFormedFrame s.data then .next (s.refuse .malformedFrame)
  else if k.toNat < (payloadOf s.data).length / 2 then .next (s.reply (.word (payloadField s.data k.toNat)))
  else .next (s.refuse .fieldIndex)

/-- The decode policy by payload length alone (R155, R156). -/
def classOf (f : List Byte) : PayloadClass := if byteCount f = Config.imuPayloadLen then .imu else .generic

/-- `PRS.CLASS` (R155): the class of the frame on the data channel. -/
def execPrsClass (s : State) : Host.Outcome State Fault Refusal :=
  if wellFormedFrame s.data then .next (s.reply (.payloadClass (classOf s.data)))
  else .next (s.refuse .malformedFrame)

/-- The result bit of `PRS.CLASS` (R155): IMU is 1, GENERIC is 0. -/
def PayloadClass.bit : PayloadClass → BitVec 1
  | .generic => 0#1
  | .imu => 1#1

/-- The four quantities of a 24-byte payload (R154). -/
inductive ImuQuantity where
  | acceleration
  | angularRate
  | magneticField
  | angle
deriving DecidableEq, Repr

/-- One of the 12 fields of a 24-byte payload (R154); axes are numbered in payload order. -/
structure ImuField where
  quantity : ImuQuantity
  axis : Nat
deriving DecidableEq, Repr

/-- The field at index `k` of a 24-byte payload (R154). -/
def imuField (k : Nat) : Option ImuField :=
  if k < 3 then some { quantity := .acceleration, axis := k }
  else if k < 6 then some { quantity := .angularRate, axis := k - 3 }
  else if k < 9 then some { quantity := .magneticField, axis := k - 6 }
  else if k < 12 then some { quantity := .angle, axis := k - 9 }
  else none

/-- The frame offset of payload field `k` (R75, R154). -/
def fieldOffset (k : Nat) : Nat := Config.hdrLen + 2 * k

/-- The fields the engine hands the caller of a generic frame, in payload order (R157). -/
def handedFields (f : List Byte) : List Int := (List.range (fieldCount f)).map (payloadField f)

end Sys2Proof.Machine
end

