-- ==== Sys2Proof/Machine/Wire.lean ====
section
/-! DEFINITION. The wire frame kinds of R82 as the engine meets them: a frame on the line is bytes of the stream, each seen as
one `ASM.FEED` operand (R70), in order (R131). A request so fed is R138's case; a response is R127's and R137's. The
direction is the model's reading of these rows (log entry 4). -/

namespace Sys2Proof.Machine

/-- `WIRE.READ_REQ` on the stream (R72, R138). -/
def execWireReadReq (a : Byte) (reg count crc : Half) (s : State) : Host.Outcome State Fault Refusal :=
  .next (feedChunk (requestBytes a Config.fcRead reg count crc) s)

/-- `WIRE.WRITE_REQ` on the stream (R72, R138). -/
def execWireWriteReq (a : Byte) (reg value crc : Half) (s : State) : Host.Outcome State Fault Refusal :=
  .next (feedChunk (requestBytes a Config.fcWrite reg value crc) s)

/-- `WIRE.UNLOCK` on the stream (R72, R138). -/
def execWireUnlock (a : Byte) (crc : Half) (s : State) : Host.Outcome State Fault Refusal :=
  .next (feedChunk (requestBytes a Config.fcWrite Config.regUnlock Config.keyUnlock crc) s)

/-- `WIRE.SAVE` on the stream (R72, R138). -/
def execWireSave (a : Byte) (crc : Half) (s : State) : Host.Outcome State Fault Refusal :=
  .next (feedChunk (requestBytes a Config.fcWrite Config.regSave Config.valSave crc) s)

/-- `WIRE.READ_RESP` on the stream (R71, R127, R137). -/
def execWireReadResp (a : Byte) (payload : List Byte) (crc : Half) (s : State) : Host.Outcome State Fault Refusal :=
  .next (feedChunk (responseBytes a payload crc) s)

end Sys2Proof.Machine
end

