-- ==== Sys2Proof/Machine/Dispatch.lean ====
section
/-! DEFINITION. One arm per constructor of Instr. -/

namespace Sys2Proof.Machine

def exec (i : Instr) (s : State) : Host.Outcome State Fault Refusal :=
  match i with
  | .chkCrc len => Sys2Proof.Machine.execChkCrc len s
  | .asmFeed b => Sys2Proof.Machine.execAsmFeed b s
  | .prsWord k => Sys2Proof.Machine.execPrsWord k s
  | .prsClass => Sys2Proof.Machine.execPrsClass s
  | .encRead a reg count => Sys2Proof.Machine.execEncRead a reg count s
  | .encWrite a reg value => Sys2Proof.Machine.execEncWrite a reg value s
  | .encUnlock a => Sys2Proof.Machine.execEncUnlock a s
  | .encSave a => Sys2Proof.Machine.execEncSave a s
  | .wireReadReq a reg count crc => Sys2Proof.Machine.execWireReadReq a reg count crc s
  | .wireWriteReq a reg value crc => Sys2Proof.Machine.execWireWriteReq a reg value crc s
  | .wireUnlock a crc => Sys2Proof.Machine.execWireUnlock a crc s
  | .wireSave a crc => Sys2Proof.Machine.execWireSave a crc s
  | .wireReadResp a payload crc => Sys2Proof.Machine.execWireReadResp a payload crc s

end Sys2Proof.Machine
end

