-- ==== Sys2Proof/Machine/Fetch.lean ====
section
/-! DEFINITION. How a request comes to be performed: the host's next request is taken (R61), a reset is applied (R230), an
encoding is decoded, and one that stands for no instruction is refused (a command word, R80) or fed as plain stream bytes
(wire bytes, R79). -/

namespace Sys2Proof.Machine

/-- What taking the next request gives: a state already settled, or an instruction to run. -/
inductive Fetched where
  | settled (s : State)
  | run (i : Instr) (s : State)
deriving DecidableEq, Repr

/-- The reset input (R230): `BUF` empty, `ADDRS` the argument, no result; whatever `BUF` held is discarded. -/
def applyReset (port : Nat) (addrs : AddrMask) (s : State) : State :=
  (s.setInstance port { buf := [], addrMask := addrs }).reply .nothing

/-- The state in which the request at `port` with this data channel is performed. -/
def acceptRequest (port : Nat) (data : List Byte) (rest : List Request) (s : State) : State :=
  { s with host := rest, port := port, data := data }

/-- An encoding that stands for no instruction: a command word is refused (R80, R203), while bytes of the wire that have
the shape of no frame kind are fed like any others (R79). -/
def performUndecoded (code : Code) (r : Reject) (s : State) : State :=
  match code with
  | .command _ =>
    match r with
    | .reservedOp => s.refuse .reservedOp
    | _ => s.refuse .reservedField
  | .wire _ bytes => feedChunk bytes s

/-- Take the host's next request. With none the engine holds its state (R135). -/
def fetch (s : State) : Fetched :=
  match s.host with
  | [] => .settled s
  | .reset port addrs :: rest => .settled (applyReset port addrs (acceptRequest port [] rest s))
  | .issue port code data :: rest =>
    match decode code with
    | .ok i => .run i (acceptRequest port data rest s)
    | .error r => .settled (performUndecoded code r (acceptRequest port data rest s))

/-- A data channel of zeros for an encoding: the `X` bytes of `CHK.CRC`, and for the parser's operations the shortest
well-formed frame, five zeros (R77, R152; log entry 10). -/
def zeroData (code : Code) : List Byte :=
  match code with
  | .command w =>
    match opOfBits (cmdOp w) with
    | some .chkCrc => List.replicate (cmdX w).toNat 0#8
    | some .prsWord => List.replicate Config.frameOverhead 0#8
    | some .prsClass => List.replicate Config.frameOverhead 0#8
    | _ => []
  | .wire _ _ => []

/-- The state whose next request, at the current port, is the encoding that the opcode table numbers as `w`. -/
def placeWord (s : State) (nbits w : Nat) : State :=
  match tableCode nbits w with
  | none => s
  | some code => { s with host := .issue s.port code (zeroData code) :: s.host }

end Sys2Proof.Machine
end

