-- ==== Sys2Proof/Machine/Step.lean ====
section
/-! DEFINITION. One step of the machine: the host's next request, performed to completion (R17, R57). -/

namespace Sys2Proof.Machine

/-- One step: take the next request and perform it. -/
def step (s : State) : Host.Outcome State Fault Refusal :=
  match fetch s with
  | .settled t => .next t
  | .run i t => exec i t

/-- The state with the encoding that the opcode table numbers as `w` as the host's next request, before those it already
holds, so that the very next step runs it (log entries 7 and 10). -/
def State.withFetchWord (s : State) (nbits w : Nat) : State := placeWord s nbits w

end Sys2Proof.Machine
end

