-- ==== Sys2Proof/Machine/Pseudo.lean ====
section
/-! DEFINITION. The host's side: the pseudo-operations `ASM.FEEDN` (R131) and `ENC.WRITESEQ` (R175) as the requests they
expand into, the host's duties of the write sequence (R241), and the performing of a list of requests with their answers. -/

namespace Sys2Proof.Machine

/-- The instance at whose interface a request is issued. -/
def Request.port : Request → Nat
  | .reset port _ => port
  | .issue port _ _ => port

/-- The request for an operation or the arrival of a wire frame, with its data channel (R77). -/
def requestOf (port : Nat) (i : Instr) (data : List Byte) : Request := .issue port (encode i) data

/-- `ASM.FEEDN` (R131): `ASM.FEED` of each byte in order. -/
def asmFeedN (port : Nat) (bytes : List Byte) : List Request :=
  bytes.map fun b => requestOf port (.asmFeed b) []

/-- `ENC.WRITESEQ` (R175): the three operations, in this order. -/
def encWriteSeq (port : Nat) (a : Byte) (reg value : Half) : List Request :=
  [requestOf port (.encUnlock a) [], requestOf port (.encWrite a reg value) [], requestOf port (.encSave a) []]

/-- What the host does on the line (R241). -/
inductive HostAction where
  | send (bytes : List Byte)
  | waitAtLeast (milliseconds : Nat)
deriving DecidableEq, Repr

/-- The host's duties of the composite write sequence (R175, R241): three requests sent, with a wait of at least `settleMs`
(`P_SETTLE`, R13, the host's parameter) between them. The engine keeps no time (R242). -/
def writeSeqActions (settleMs : Nat) (a : Byte) (reg value : Half) : List HostAction :=
  [.send (buildRequest a Config.fcWrite Config.regUnlock Config.keyUnlock), .waitAtLeast settleMs,
   .send (buildRequest a Config.fcWrite reg value), .waitAtLeast settleMs,
   .send (buildRequest a Config.fcWrite Config.regSave Config.valSave)]

/-- What performing a list of requests gives: each request's port and answer, in order, and the last state. -/
structure Served where
  answers : List (Nat × Answer)
  state : State
deriving DecidableEq, Repr

/-- Perform requests one at a time, in order (R61), one step each; a step that stopped would end the list. -/
def serve : List Request → State → Served
  | [], s => { answers := [], state := s }
  | r :: rest, s =>
    match step { s with host := [r] } with
    | .next t =>
      let later := serve rest t
      { answers := (r.port, t.answer) :: later.answers, state := later.state }
    | .fault _ => { answers := [], state := s }
    | .refused _ => { answers := [], state := s }

/-- The frames emitted by a list of `ASM.FEED` answers, each with its index (R131). -/
def emissionsOf (i : Nat) : List (Nat × Answer) → List (Nat × List Byte)
  | [] => []
  | (_, .frame emitted) :: rest => consEmission i emitted (emissionsOf (i + 1) rest)
  | _ :: rest => emissionsOf (i + 1) rest

end Sys2Proof.Machine
end

