-- ==== Sys2Proof/Machine/Reference.lean ====
section
/-! DEFINITION. Second forms of the decoder's tests, the checksum and the settle loop, written from the spec's own
alternative descriptions, for statements to compare the machine with: the matches and masks of the command words
(R78), the bit loop that generates the tables (R100), the direct-polynomial checksum (R103), and the settle loop line
by line with its iterations counted (R122, R133). The machine does not use them. -/

namespace Sys2Proof.Machine

/-- The eight operations' match and mask on the command word (R78), in the order of their codes. -/
def operationRows : List (CmdWord × CmdWord) :=
  [(0x000000000000#48, 0xFFFF0000FFFF#48), (0x100000000000#48, 0xFF00FFFFFFFF#48),
   (0x200000000000#48, 0xFFFF0000FFFF#48), (0x300000000000#48, 0xFFFFFFFFFFFF#48),
   (0x400000000000#48, 0xFF0000000000#48), (0x500000000000#48, 0xFF0000000000#48),
   (0x600000000000#48, 0xFF00FFFFFFFF#48), (0x700000000000#48, 0xFF00FFFFFFFF#48)]

/-- A command word matches a row of R78. -/
def matchesRow (w : CmdWord) (row : CmdWord × CmdWord) : Bool := w &&& row.2 == row.1

/-- One shift of the bitwise checksum (R100, R103). -/
def crcShift (r : Half) : Half := if r.getLsbD 0 then (r >>> 1) ^^^ Config.crcPoly else r >>> 1

/-- Eight shifts (R100, R103). -/
def crcShift8 (r : Half) : Half :=
  crcShift (crcShift (crcShift (crcShift (crcShift (crcShift (crcShift (crcShift r)))))))

/-- The register value `t` from which R100 generates the table entries at index `i`. -/
def tableRegister (i : Byte) : Half := crcShift8 (i.setWidth 16)

/-- The direct form's register `r` after the bytes of `s` (R103). -/
def directRegister (s : List Byte) : Half := s.foldl (fun r b => crcShift8 (r ^^^ b.setWidth 16)) 0xFFFF#16

/-- The byte-swap of a 16-bit value (R103). -/
def swapBytes (v : Half) : Half := be16 (lo8 v) (hi8 v)

/-- The checksum value by the direct form (R103): the byte-swap of the register. -/
def directCrc (s : List Byte) : Half := swapBytes (directRegister s)

/-- The request of R72 with its fields written out as numbers and stamped with the direct form's checksum (R103). -/
def stampedRequest (a f : Byte) (x y : Half) : List Byte :=
  let m := [a, f, BitVec.ofNat 8 (x.toNat / 256), BitVec.ofNat 8 (x.toNat % 256), BitVec.ofNat 8 (y.toNat / 256),
    BitVec.ofNat 8 (y.toNat % 256)]
  m ++ [BitVec.ofNat 8 ((directCrc m).toNat / 256), BitVec.ofNat 8 ((directCrc m).toNat % 256)]

/-- The loop of R122, line by line, for at most `fuel` iterations; `none` if it has not returned by then. -/
def settleLoop (mask : AddrMask) : Nat → List Byte → Option Settled
  | 0, _ => none
  | fuel + 1, buf =>
    if buf.length = 0 then some { emitted := none, buf := buf }
    else if inAddrs mask (byteAt buf 0) = false then settleLoop mask fuel (bufDropFront 1 buf)
    else if buf.length ≤ 2 then some { emitted := none, buf := buf }
    else if byteAt buf 1 ≠ 0x03#8 then settleLoop mask fuel (bufDropFront 1 buf)
    else if buf.length < (byteAt buf 2).toNat + 5 then some { emitted := none, buf := buf }
    else if crcOk (buf.take ((byteAt buf 2).toNat + 5)) = true then
      some { emitted := some (buf.take ((byteAt buf 2).toNat + 5)), buf := bufDropFront ((byteAt buf 2).toNat + 5) buf }
    else settleLoop mask fuel (bufDropFront 1 buf)

end Sys2Proof.Machine
end

