-- ==== Sys2Proof/Safety.lean ====
section
/-! DEFINITION. What a sound state of the engine is: the canonical form of the instances' storage with the buffer bound
(R32, R130, R41), settled buffers (R130), and valid responses (R137, R151). -/

namespace Sys2Proof.Machine

/-- The canonical form of the engine's memory: ports strictly rising, and every `BUF` at most 259 bytes, one below
`BUF_CAP` (R32, R130 (iii)). -/
abbrev Memory.wf (instances : List (Nat × Instance)) : Prop :=
  instances.Pairwise (fun x y => x.1 < y.1) ∧ ∀ x ∈ instances, x.2.buf.length < Config.bufCap

/-- The invariant between operations. -/
abbrev State.Inv (s : State) : Prop := Memory.wf s.instances

/-- `BUF` is settled (R130 (i)): empty, or its first byte is a configured address and it is too short to be tested further,
or it starts a read response that is not yet complete. -/
abbrev Settled.stable (mask : AddrMask) (buf : List Byte) : Prop :=
  buf = [] ∨ (inAddrs mask (byteAt buf 0) = true ∧
    (buf.length ≤ 2 ∨ (byteAt buf 1 = Config.fcRead ∧ buf.length < expectedLength buf)))

/-- `F` is a valid response for the address set (R137). -/
abbrev validResponse (mask : AddrMask) (f : List Byte) : Prop :=
  inAddrs mask (byteAt f 0) = true ∧ byteAt f 1 = Config.fcRead ∧ f.length = expectedLength f ∧ crcOk f = true

/-- No step stops: the engine raises no exception (R200) and refuses by answering (R203). -/
abbrev State.runs (s : State) : Prop := ∃ t, step s = .next t

end Sys2Proof.Machine
end

