-- ==== Sys2Proof/Certificates/Slice0/Obligations.lean ====
section
/-! DEFINITION. The statements about the engine, for the provers. A statement that rests on one of the model's own choices
names its log entry. -/

open Sys2Proof Sys2Proof.Machine

/-! ### Reset and requests -/

/-- R230: the reset input, at the port where it is given, leaves `BUF = []` and `ADDRS` the argument, has no result, and
leaves every other instance alone. -/
def Obligations.ResetEmptiesTheBufferAndLoadsTheAddressSet : Prop :=
  ∀ (s : State) (p : Nat) (addrs : AddrMask) (rest : List Request), s.host = .reset p addrs :: rest →
    ∃ t, step s = .next t ∧ t.instanceAt p = some { buf := [], addrMask := addrs } ∧
      (∀ q, q ≠ p → t.instanceAt q = s.instanceAt q) ∧ t.answer = .nothing ∧ t.host = rest

/-- R42, R231: right after reset with any address set, `BUF` is empty, `ADDRS` is the argument, and the state is in
canonical form; `State.reset` is such a state. That reset leaves one instance, at port 0, and which set `State.reset`
names, are the model's choices (log entries 6 and 7). Inference that the spec marks as its own: R231. -/
def Obligations.StateAfterResetIsAnEmptyCanonicalEngine : Prop :=
  (∀ addrs : AddrMask, (State.resetWith addrs).Inv ∧
    (State.resetWith addrs).instanceAt 0 = some { buf := [], addrMask := addrs } ∧
    ∀ q, q ≠ 0 → (State.resetWith addrs).instanceAt q = none) ∧
  State.reset = State.resetWith Config.resetAddrs

/-- R32, R130 (iii): from every state in canonical form whose buffers hold at most 259 bytes, a step leads to such a
state. That the instances are listed by rising port is the model's form of R41 (log entry 6). Inferences that the spec
marks as its own: R32 and R130. -/
def Obligations.EveryStepKeepsBuffersWithinCapacity : Prop :=
  ∀ s t : State, s.Inv → step s = .next t → t.Inv

/-- R200, R203: no step stops. That a refused request is a next state is the model's reading (log entry 3). -/
def Obligations.NoStepFaultsOrStops : Prop := ∀ s : State, s.runs

/-- R61, R77: where the host's next request is the encoding of an instruction, the step is that instruction performed
with the request's data channel at the request's port (log entries 1 and 6). -/
def Obligations.StepRunsTheDecodedInstruction : Prop :=
  ∀ (s : State) (p : Nat) (code : Code) (data : List Byte) (rest : List Request) (i : Instr),
    s.host = .issue p code data :: rest → decode code = .ok i →
      i.wf = true ∧ step s = exec i { s with host := rest, port := p, data := data }

/-- R135: with no request, nothing changes (that such a step is a next state is log entry 5). -/
def Obligations.StepWithoutRequestChangesNothing : Prop := ∀ s : State, s.host = [] → step s = .next s

/-- R80, R203: a command word that matches no row of R78 is refused, with `ReservedOp` if its `OP` is 0x8 to 0xF and
with `ReservedField` otherwise, and no instance changes. That the reason is the answer is log entry 3. -/
def Obligations.ReservedCommandWordsAreRefusedByName : Prop :=
  ∀ (s : State) (p : Nat) (w : CmdWord) (data : List Byte) (rest : List Request),
    s.host = .issue p (.command w) data :: rest → (∀ row ∈ operationRows, matchesRow w row = false) →
      step s = .next { s with
        host := rest, port := p, data := data,
        answer := .refused (if 8 ≤ w.toNat / 2 ^ 44 then .reservedOp else .reservedField) }

/-! ### Encoding -/

/-- R78: a command word stands for an instruction exactly where it matches one of the eight rows' match and mask. -/
def Obligations.CommandWordDecodesIffItMatchesARow : Prop :=
  ∀ w : CmdWord, (∃ i, decode (.command w) = .ok i) ↔ ∃ row ∈ operationRows, matchesRow w row = true

/-- R71, R72, R78: decoding the encoding of a well-formed instruction gives it back, whatever its operands. That an
unlock or save request is no `WIRE.WRITE_REQ` is log entry 11. -/
def Obligations.DecodingAnEncodingGivesTheInstructionBack : Prop :=
  ∀ i : Instr, i.wf = true → decode (encode i) = .ok i

/-- R71, R72, R78: an encoding that decodes is the encoding of the well-formed instruction it decodes to. That an unlock
or save request is no `WIRE.WRITE_REQ` is log entry 11. -/
def Obligations.EveryDecodedCodeIsThatInstructionsEncoding : Prop :=
  ∀ (c : Code) (i : Instr), decode c = .ok i → i.wf = true ∧ encode i = c

/-- Command words and frames that the spec writes out (95_test_vectors.md E5 and section 3) decode to what it says; that
the unlock request decodes to the row `WIRE.UNLOCK` and not to `WIRE.WRITE_REQ`, whose pattern it fits too, is the
model's choice (log entry 11). -/
def Obligations.WordsTheSpecWritesOutDecode : Prop :=
  decode (.command 0x000000060000#48) = .ok (.chkCrc 6#16) ∧
  decode (.command 0x105000000000#48) = .ok (.asmFeed 0x50#8) ∧
  decode (.command 0x200000040000#48) = .ok (.prsWord 4#16) ∧
  decode (.command 0x300000000000#48) = .ok .prsClass ∧
  decode (.command 0x40500034000C#48) = .ok (.encRead 0x50#8 0x0034#16 0x000C#16) ∧
  decode (.command 0x505000030001#48) = .ok (.encWrite 0x50#8 0x0003#16 0x0001#16) ∧
  decode (.command 0x605000000000#48) = .ok (.encUnlock 0x50#8) ∧
  decode (.command 0x705000000000#48) = .ok (.encSave 0x50#8) ∧
  decode (.wire .request [0x50, 0x03, 0x00, 0x34, 0x00, 0x0C, 0x09, 0x80]) =
    .ok (.wireReadReq 0x50#8 0x0034#16 0x000C#16 0x0980#16) ∧
  decode (.wire .request [0x50, 0x06, 0x00, 0x69, 0xB5, 0x88, 0x22, 0xA1]) = .ok (.wireUnlock 0x50#8 0x22A1#16) ∧
  decode (.wire .response [0x50, 0x03, 0x03, 0x01, 0x02, 0x03, 0x58, 0xAE]) =
    .ok (.wireReadResp 0x50#8 [0x01, 0x02, 0x03] 0x58AE#16)

/-! ### Checksum -/

/-- R38, R100: both tables have 256 entries, and each entry is the one the generating rule gives. -/
def Obligations.TablesHoldWhatTheGeneratingRuleGives : Prop :=
  romHi.length = 256 ∧ romLo.length = 256 ∧
  ∀ i : Byte, memRead [] .romHi i.toNat = some (lo8 (tableRegister i)) ∧
    memRead [] .romLo i.toNat = some (hi8 (tableRegister i))

/-- R103: the table-driven checksum is the byte-swap of the direct-polynomial register, on every byte sequence.
Inference that the spec marks as its own: R103. -/
def Obligations.TableChecksumIsTheDirectFormByteSwapped : Prop := ∀ s : List Byte, crc s = directCrc s

/-- R106: a message followed by its own checksum, high byte first, has checksum 0, and a frame of at least two bytes
passes `CRC_OK` exactly where its checksum is 0. Inference that the spec marks as its own: R106. -/
def Obligations.StampedMessageHasZeroResidue : Prop :=
  (∀ m : List Byte, crc (m ++ [hi8 (crc m), lo8 (crc m)]) = 0x0000#16) ∧
  ∀ f : List Byte, 2 ≤ f.length → (crcOk f = true ↔ crc f = 0x0000#16)

/-- R102, R103, R107, R204: where the data channel holds at least `len` bytes, `CHK.CRC` answers the checksum of the
first `len` of them, here in the direct form, and changes nothing else; a length above 258 is refused with `CrcLength`
where the implementation sets a `P_CRC_MAXLEN` that it exceeds. That bytes behind the first `len` are ignored is log
entry 9, that the parameter is open log entry 8. Inference that the spec marks as its own: R103. That a refusal is a
next state whose answer is the reason is log entries 3 and 17. -/
def Obligations.ChkCrcAnswersTheChecksumOfItsData : Prop :=
  ∀ (s : State) (len : Half), len.toNat ≤ s.data.length →
    (len.toNat ≤ 258 →
      exec (.chkCrc len) s = .next { s with answer := .checksum (directCrc (s.data.take len.toNat)) }) ∧
    (258 < len.toNat →
      exec (.chkCrc len) s = .next { s with
        answer :=
          if Config.crcMaxLen.any (fun m => decide (m < len.toNat)) = true then .refused .crcLength
          else .checksum (directCrc (s.data.take len.toNat)) })

/-- R107, R204: `CHK.CRC` with a length beyond its data is refused with `CrcLength`, and nothing else changes. That a
refusal is a next state whose answer is the reason is log entries 3 and 17. -/
def Obligations.ChkCrcBeyondItsDataIsRefused : Prop :=
  ∀ (s : State) (len : Half), s.data.length < len.toNat →
    exec (.chkCrc len) s = .next { s with answer := .refused .crcLength }

/-- R139: a frame that passes `CRC_OK` fails it after any single byte of it is changed, a checksum byte included.
Inference that the spec marks as its own: R139. -/
def Obligations.ChecksumDetectsEverySingleByteChange : Prop :=
  ∀ (f : List Byte) (j : Nat) (b : Byte), 2 ≤ f.length → crcOk f = true → j < f.length → byteAt f j ≠ b →
    crcOk (f.set j b) = false

/-! ### Assembler -/

/-- R122: `ASM.FEED` appends its byte and runs the settle loop until it returns; the answer is what the loop emitted,
`BUF` of the instance at the port is what it left, and nothing else changes (R121). -/
def Obligations.FeedAppendsAndRunsTheSettleLoop : Prop :=
  ∀ (s : State) (b : Byte) (inst : Instance), s.instanceAt s.port = some inst →
    ∃ iterations r t, settleLoop inst.addrMask iterations (inst.buf ++ [b]) = some r ∧
      exec (.asmFeed b) s = .next t ∧ t.answer = .frame r.emitted ∧
      t.instanceAt s.port = some { buf := r.buf, addrMask := inst.addrMask } ∧
      (∀ q, q ≠ s.port → t.instanceAt q = s.instanceAt q) ∧
      t.port = s.port ∧ t.data = s.data ∧ t.host = s.host

/-- R133: the settle loop returns within `len(BUF) + 1` iterations, and with more it returns the same. Inference that
the spec marks as its own: R133. -/
def Obligations.SettleLoopReturnsWithinItsBound : Prop :=
  ∀ (mask : AddrMask) (buf : List Byte), ∃ r, ∀ more, settleLoop mask (buf.length + 1 + more) buf = some r

/-- R203, R233: `ASM.FEED` on an instance that was never reset is refused with `NotReset`, and nothing else changes.
That a refusal is a next state whose answer is the reason is log entries 3 and 17. -/
def Obligations.FeedBeforeAnyResetIsRefused : Prop :=
  ∀ (s : State) (b : Byte), s.instanceAt s.port = none →
    exec (.asmFeed b) s = .next { s with answer := .refused .notReset }

/-- R130 (i), (ii): after a feed that answers NONE the buffer is settled and holds at most 259 bytes; after one that
answers a frame the buffer is the remainder behind it, at most 255 bytes. Inference that the spec marks as its own:
R130. -/
def Obligations.FeedLeavesASettledBufferOrTheRemainder : Prop :=
  ∀ (s t : State) (b : Byte) (inst inst' : Instance), s.instanceAt s.port = some inst → inst.buf.length ≤ 259 →
    exec (.asmFeed b) s = .next t → t.instanceAt s.port = some inst' →
      inst'.addrMask = inst.addrMask ∧
      (t.answer = .frame none → Settled.stable inst'.addrMask inst'.buf ∧ inst'.buf.length ≤ 259) ∧
      ∀ f, t.answer = .frame (some f) →
        ∃ dropped, inst.buf ++ [b] = dropped ++ f ++ inst'.buf ∧ inst'.buf.length ≤ 255

/-- R151: every frame that `ASM.FEED` returns has an address in `ADDRS`, function code 0x03, a payload of `byte_count =
n - 5` bytes, and the checksum of its first `n - 2` bytes. Inference that the spec marks as its own: R151. -/
def Obligations.EmittedFramesAreValid : Prop :=
  ∀ (s t : State) (b : Byte) (inst : Instance) (f : List Byte), s.instanceAt s.port = some inst →
    exec (.asmFeed b) s = .next t → t.answer = .frame (some f) →
      inAddrs inst.addrMask (viewFrame f).address = true ∧ (viewFrame f).functionCode = 0x03#8 ∧
      (viewFrame f).payload.length = (viewFrame f).byteCount.toNat ∧
      (viewFrame f).byteCount.toNat + 5 = f.length ∧ (viewFrame f).checksum = crc (f.take (f.length - 2))

/-- R134: the frames that feeding a stream emits are contiguous runs of it, disjoint, in the order of their positions
and of their closing bytes; what is not emitted is dropped or still held. Inference that the spec marks as its own:
R134. -/
def Obligations.FramesAreDisjointRunsOfTheStreamInOrder : Prop :=
  ∀ (s : State) (p : Nat) (bytes : List Byte) (inst : Instance), s.instanceAt p = some inst →
    ∃ (inst' : Instance) (gaps : List (List Byte)) (dropped : List Byte),
      (serve (asmFeedN p bytes) s).state.instanceAt p = some inst' ∧
      gaps.length = (emissionsOf 0 (serve (asmFeedN p bytes) s).answers).length ∧
      inst.buf ++ bytes =
        (List.zipWith (fun g e => g ++ e.2) gaps (emissionsOf 0 (serve (asmFeedN p bytes) s).answers)).flatten ++
          dropped ++ inst'.buf ∧
      (emissionsOf 0 (serve (asmFeedN p bytes) s).answers).Pairwise (fun x y => x.1 < y.1) ∧
      ∀ e ∈ emissionsOf 0 (serve (asmFeedN p bytes) s).answers, e.1 < bytes.length

/-- R137: a valid response fed to an empty buffer: every feed but the last answers NONE, the last answers the response
and leaves the buffer empty. Inference that the spec marks as its own: R137. -/
def Obligations.ValidResponseIsEmittedAtItsLastByte : Prop :=
  ∀ (s : State) (p : Nat) (mask : AddrMask) (f : List Byte),
    s.instanceAt p = some { buf := [], addrMask := mask } → validResponse mask f →
      (serve (asmFeedN p f) s).answers =
        List.replicate (f.length - 1) (p, .frame none) ++ [(p, .frame (some f))] ∧
      (serve (asmFeedN p f) s).state.instanceAt p = some { buf := [], addrMask := mask }

/-- R136: bytes that are not in `ADDRS`, fed to an empty buffer before a stream, are answered NONE and change neither
the stream's answers nor any instance's end state. Inference that the spec marks as its own: R136. -/
def Obligations.LeadingGarbageChangesNothing : Prop :=
  ∀ (s : State) (p : Nat) (mask : AddrMask) (g bytes : List Byte),
    s.instanceAt p = some { buf := [], addrMask := mask } → (∀ b ∈ g, inAddrs mask b = false) →
      (serve (asmFeedN p (g ++ bytes)) s).answers =
        List.replicate g.length (p, .frame none) ++ (serve (asmFeedN p bytes) s).answers ∧
      ∀ q, (serve (asmFeedN p (g ++ bytes)) s).state.instanceAt q = (serve (asmFeedN p bytes) s).state.instanceAt q

/-- R123: where the first byte held, the fed byte if none is, is no configured address, it is dropped and the rest is
settled: the feed does what it would do had that byte not been held, and drops the fed byte where nothing else is. -/
def Obligations.FirstByteOutsideTheAddressSetIsDropped : Prop :=
  ∀ (s : State) (b : Byte) (mask : AddrMask),
    (s.instanceAt s.port = some { buf := [], addrMask := mask } → inAddrs mask b = false →
      ∃ t, exec (.asmFeed b) s = .next t ∧ t.answer = .frame none ∧
        t.instanceAt s.port = some { buf := [], addrMask := mask }) ∧
    ∀ (first : Byte) (rest : List Byte),
      s.instanceAt s.port = some { buf := first :: rest, addrMask := mask } → inAddrs mask first = false →
        ∃ t u, exec (.asmFeed b) s = .next t ∧
          exec (.asmFeed b) (s.setInstance s.port { buf := rest, addrMask := mask }) = .next u ∧
          t.answer = u.answer ∧ ∀ q, t.instanceAt q = u.instanceAt q

/-- R125: behind a configured address, one or two bytes are held without a test of the function code; once a third byte
is held, a second byte other than 0x03 drops the first, and the feed does what it would do had that not been held. -/
def Obligations.FunctionCodeIsTestedOnceThreeBytesAreHeld : Prop :=
  ∀ (s : State) (b : Byte) (mask : AddrMask),
    (∀ held : List Byte, s.instanceAt s.port = some { buf := held, addrMask := mask } → held.length ≤ 1 →
      inAddrs mask (byteAt (held ++ [b]) 0) = true →
        ∃ t, exec (.asmFeed b) s = .next t ∧ t.answer = .frame none ∧
          t.instanceAt s.port = some { buf := held ++ [b], addrMask := mask }) ∧
    ∀ (first second : Byte) (rest : List Byte),
      s.instanceAt s.port = some { buf := first :: second :: rest, addrMask := mask } → inAddrs mask first = true →
      second ≠ 0x03#8 →
        ∃ t u, exec (.asmFeed b) s = .next t ∧
          exec (.asmFeed b) (s.setInstance s.port { buf := second :: rest, addrMask := mask }) = .next u ∧
          t.answer = u.answer ∧ ∀ q, t.instanceAt q = u.instanceAt q

/-- R126: a candidate that the fed byte leaves shorter than its expected length is kept, every byte of it, and the
answer is NONE. -/
def Obligations.IncompleteCandidateIsKept : Prop :=
  ∀ (s : State) (b : Byte) (held : List Byte) (mask : AddrMask),
    s.instanceAt s.port = some { buf := held, addrMask := mask } → inAddrs mask (byteAt (held ++ [b]) 0) = true →
    2 ≤ held.length → byteAt held 1 = 0x03#8 → held.length + 1 < (byteAt (held ++ [b]) 2).toNat + 5 →
      ∃ t, exec (.asmFeed b) s = .next t ∧ t.answer = .frame none ∧
        t.instanceAt s.port = some { buf := held ++ [b], addrMask := mask }

/-- R127 (and R128 where bytes stand behind the candidate): where a valid frame stands at the front of the bytes held
and the fed byte, the feed answers exactly that frame and removes it; what stands behind it is kept, unexamined. -/
def Obligations.MatchingCandidateIsEmittedAndRemoved : Prop :=
  ∀ (s : State) (b : Byte) (mask : AddrMask) (held f rest : List Byte),
    s.instanceAt s.port = some { buf := held, addrMask := mask } → held ++ [b] = f ++ rest → validResponse mask f →
      ∃ t, exec (.asmFeed b) s = .next t ∧ t.answer = .frame (some f) ∧
        t.instanceAt s.port = some { buf := rest, addrMask := mask }

/-- R129: where the fed byte completes a candidate whose checksum does not match, the feed does what it would do had the
first byte not been held. -/
def Obligations.ChecksumMismatchDropsOnlyTheFirstByte : Prop :=
  ∀ (s : State) (b first : Byte) (rest : List Byte) (mask : AddrMask),
    s.instanceAt s.port = some { buf := first :: rest, addrMask := mask } → inAddrs mask first = true →
    byteAt (first :: rest) 1 = 0x03#8 → expectedLength (first :: rest) ≤ rest.length + 2 → 3 ≤ (first :: rest).length →
    crcOk ((first :: rest ++ [b]).take (expectedLength (first :: rest))) = false →
      ∃ t u, exec (.asmFeed b) s = .next t ∧
        exec (.asmFeed b) (s.setInstance s.port { buf := rest, addrMask := mask }) = .next u ∧
        t.answer = u.answer ∧ ∀ q, t.instanceAt q = u.instanceAt q

/-- R125: where the fed byte is the third held and the second is not 0x03, the first byte is dropped and the other two
are settled, which cannot emit: the answer is NONE and at most two bytes are held. -/
def Obligations.WrongFunctionCodeIsDroppedAtTheThirdByte : Prop :=
  ∀ (s : State) (a f b : Byte) (mask : AddrMask),
    s.instanceAt s.port = some { buf := [a, f], addrMask := mask } → inAddrs mask a = true → f ≠ 0x03#8 →
      ∃ t, exec (.asmFeed b) s = .next t ∧ t.answer = .frame none ∧
        t.instanceAt s.port = some
          { buf := if inAddrs mask f then [f, b] else if inAddrs mask b then [b] else [], addrMask := mask }

/-- R121: with an empty address set every feed answers NONE and leaves the buffer empty, whatever it held. -/
def Obligations.EmptyAddressSetDropsEveryByte : Prop :=
  ∀ (s : State) (b : Byte) (buf : List Byte), s.instanceAt s.port = some { buf := buf, addrMask := 0#256 } →
    ∃ t, exec (.asmFeed b) s = .next t ∧ t.answer = .frame none ∧
      t.instanceAt s.port = some { buf := [], addrMask := 0#256 }

/-! ### Bytes and frames on the wire -/

/-- R70, R79, R131, R132: bytes arriving on the stream, whatever they are, do to every instance what feeding them one at
a time does, and the answer lists the frames those feeds emitted with their indices. That bytes arrive as one request,
and that its format is not looked at, are log entries 4 and 12. Inference that the spec marks as its own: R132. -/
def Obligations.ArrivingBytesAreFedOneByOne : Prop :=
  ∀ (s : State) (p : Nat) (f : WireFormat) (bytes data : List Byte) (rest : List Request) (inst : Instance),
    s.host = .issue p (.wire f bytes) data :: rest → s.instanceAt p = some inst →
      ∃ t, step s = .next t ∧ t.answer = .emissions (emissionsOf 0 (serve (asmFeedN p bytes) s).answers) ∧
        (∀ q, t.instanceAt q = (serve (asmFeedN p bytes) s).state.instanceAt q) ∧ t.host = rest

/-- R132: splitting arriving bytes into two chunks, of whatever formats, changes neither the emissions nor any
instance's end state (log entries 4 and 12). Inference that the spec marks as its own: R132. -/
def Obligations.SplittingAChunkChangesNothing : Prop :=
  ∀ (s : State) (p : Nat) (f g h : WireFormat) (xs ys : List Byte) (inst : Instance), s.instanceAt p = some inst →
    ∃ ex ey,
      (serve [.issue p (.wire f xs) [], .issue p (.wire g ys) []] s).answers = [(p, .emissions ex), (p, .emissions ey)] ∧
      (serve [.issue p (.wire h (xs ++ ys)) []] s).answers =
        [(p, .emissions (ex ++ ey.map fun e => (xs.length + e.1, e.2)))] ∧
      ∀ q, (serve [.issue p (.wire h (xs ++ ys)) []] s).state.instanceAt q =
        (serve [.issue p (.wire f xs) [], .issue p (.wire g ys) []] s).state.instanceAt q

/-- R70, R82, R131: each of the five wire frame kinds, arriving at an instance that was reset, completes: its bytes are
fed in order, and nothing but that instance and the answer changes (log entry 4). Inference that the spec marks as its
own: R82. -/
def Obligations.WireFramesCompleteAsFeedsOfTheirBytes : Prop :=
  ∀ (s : State) (inst : Instance) (a : Byte) (reg y c : Half) (payload : List Byte),
    s.instanceAt s.port = some inst →
    ∀ i ∈ [Instr.wireReadReq a reg y c, Instr.wireWriteReq a reg y c, Instr.wireUnlock a c, Instr.wireSave a c,
        Instr.wireReadResp a payload c], ∀ f bytes, encode i = .wire f bytes →
      ∃ t, exec i s = .next t ∧
        t.answer = .emissions (emissionsOf 0 (serve (asmFeedN s.port bytes) s).answers) ∧
        (∀ q, t.instanceAt q = (serve (asmFeedN s.port bytes) s).state.instanceAt q) ∧
        (∀ q, q ≠ s.port → t.instanceAt q = s.instanceAt q) ∧
        t.port = s.port ∧ t.data = s.data ∧ t.host = s.host

/-- R203, R233: each of the five wire frame kinds, arriving at an instance that was never reset, is refused with
`NotReset` (its feeds are), and nothing else changes (log entries 4 and 20). -/
def Obligations.WireFramesBeforeAnyResetAreRefused : Prop :=
  ∀ (s : State) (a : Byte) (reg y c : Half) (payload : List Byte), s.instanceAt s.port = none →
    ∀ i ∈ [Instr.wireReadReq a reg y c, Instr.wireWriteReq a reg y c, Instr.wireUnlock a c, Instr.wireSave a c,
        Instr.wireReadResp a payload c], exec i s = .next { s with answer := .refused .notReset }

/-- R71, R127, R137: a read response from a configured address with the right checksum, arriving at an empty buffer, is
emitted whole at its last byte and leaves the buffer empty (log entry 4). Inference that the spec marks as its own:
R137. -/
def Obligations.ArrivingResponseIsEmittedWhole : Prop :=
  ∀ (s : State) (mask : AddrMask) (a : Byte) (payload : List Byte),
    s.instanceAt s.port = some { buf := [], addrMask := mask } → inAddrs mask a = true → payload.length ≤ 255 →
      ∃ t, exec (.wireReadResp a payload (crc ([a, 0x03#8, BitVec.ofNat 8 payload.length] ++ payload))) s = .next t ∧
        t.answer = .emissions [(payload.length + 4,
          [a, 0x03#8, BitVec.ofNat 8 payload.length] ++ payload ++
            crcBytes ([a, 0x03#8, BitVec.ofNat 8 payload.length] ++ payload))] ∧
        t.instanceAt s.port = some { buf := [], addrMask := mask }

/-- R138: a read request whose register address has high byte 0x03, with the right checksum, arriving from a configured
address at an empty buffer, is emitted as a frame at its last byte (log entry 4). Inference that the spec marks as its
own: R138. -/
def Obligations.ReadRequestOfRegisterPageThreeIsEmitted : Prop :=
  ∀ (s : State) (mask : AddrMask) (a : Byte) (reg count : Half),
    s.instanceAt s.port = some { buf := [], addrMask := mask } → inAddrs mask a = true → hi8 reg = 0x03#8 →
      ∃ t, exec (.wireReadReq a reg count (crc [a, 0x03#8, hi8 reg, lo8 reg, hi8 count, lo8 count])) s = .next t ∧
        t.answer = .emissions [(7, buildRequest a 0x03#8 reg count)] ∧
        payloadOf (buildRequest a 0x03#8 reg count) = [lo8 reg, hi8 count, lo8 count] ∧
        t.instanceAt s.port = some { buf := [], addrMask := mask }

/-- R138: a read request whose register address has a high byte above 0x03, arriving from a configured address at an
empty buffer, emits nothing and stays held as the start of a longer candidate, whatever its checksum (log entry 4).
Inference that the spec marks as its own: R138. -/
def Obligations.ReadRequestOfAHigherPageStaysPending : Prop :=
  ∀ (s : State) (mask : AddrMask) (a : Byte) (reg count c : Half),
    s.instanceAt s.port = some { buf := [], addrMask := mask } → inAddrs mask a = true → 3 < (hi8 reg).toNat →
      ∃ t, exec (.wireReadReq a reg count c) s = .next t ∧ t.answer = .emissions [] ∧
        t.instanceAt s.port = some { buf := requestBytes a 0x03#8 reg count c, addrMask := mask }

/-- R125, R138: an unlock or save request arriving at an empty buffer emits nothing, whatever the address set and its
checksum field (log entry 4). Inference that the spec marks as its own: R138. -/
def Obligations.ArrivingControlRequestsEmitNothing : Prop :=
  ∀ (s : State) (mask : AddrMask) (a : Byte) (c : Half), s.instanceAt s.port = some { buf := [], addrMask := mask } →
    (∃ t, exec (.wireUnlock a c) s = .next t ∧ t.answer = .emissions []) ∧
    ∃ t, exec (.wireSave a c) s = .next t ∧ t.answer = .emissions []

/-! ### Parser -/

/-- R75, R152, R153: on a well-formed frame with a field `k`, `PRS.WORD` answers that field of the payload, read high
byte first as two's complement, and changes nothing else. -/
def Obligations.PrsWordAnswersTheSignedField : Prop :=
  ∀ (s : State) (k : Half), wellFormedFrame s.data = true → k.toNat < (byteAt s.data 2).toNat / 2 →
    exec (.prsWord k) s = .next { s with
      answer := .word
        (let u : Int := (byteAt s.data (3 + 2 * k.toNat)).toNat * 256 + (byteAt s.data (4 + 2 * k.toNat)).toNat
         if 32768 ≤ u then u - 65536 else u) }

/-- R153, R203: `PRS.WORD` is refused with `MalformedFrame` on an operand that is not well-formed, whatever `k`, and
else with `FieldIndex` where the payload has no field `k`; nothing else changes (log entry 3). -/
def Obligations.PrsWordRefusesMalformedFramesAndMissingFields : Prop :=
  ∀ (s : State) (k : Half),
    (wellFormedFrame s.data = false → exec (.prsWord k) s = .next { s with answer := .refused .malformedFrame }) ∧
    (wellFormedFrame s.data = true → (byteAt s.data 2).toNat / 2 ≤ k.toNat →
      exec (.prsWord k) s = .next { s with answer := .refused .fieldIndex })

/-- R155, R156: on an operand of at least five bytes whose length is its third byte plus 5, `PRS.CLASS` answers IMU (bit
1) exactly where the third byte is 24 and GENERIC (bit 0) otherwise; on any other operand it is refused with
`MalformedFrame`; nothing else changes. That a refusal is a next state whose answer is the reason is log entries 3 and
17. -/
def Obligations.PrsClassAnswersByPayloadLengthAlone : Prop :=
  ∀ s : State,
    (5 ≤ s.data.length ∧ s.data.length = (byteAt s.data 2).toNat + 5 →
      exec .prsClass s = .next { s with
        answer := .payloadClass (if byteAt s.data 2 = 24#8 then .imu else .generic) }) ∧
    (¬(5 ≤ s.data.length ∧ s.data.length = (byteAt s.data 2).toNat + 5) →
      exec .prsClass s = .next { s with answer := .refused .malformedFrame }) ∧
    PayloadClass.imu.bit = 1#1 ∧ PayloadClass.generic.bit = 0#1

/-- R157: the fields handed over of a well-formed frame are as many as half its byte count, and are what `PRS.WORD`
answers for each index in order. -/
def Obligations.HandedFieldsAreTheWordsInPayloadOrder : Prop :=
  ∀ s : State, wellFormedFrame s.data = true →
    (handedFields s.data).length = (byteAt s.data 2).toNat / 2 ∧
    ∀ k : Half, k.toNat < (byteAt s.data 2).toNat / 2 →
      ∃ w, (handedFields s.data)[k.toNat]? = some w ∧ exec (.prsWord k) s = .next { s with answer := .word w }

/-- R151, R152: every frame that `ASM.FEED` returns is taken by the parser: `PRS.CLASS` answers a class, and `PRS.WORD`
answers a field in the 16-bit signed range for each index below half the byte count. Inference that the spec marks as
its own: R151. -/
def Obligations.EveryEmittedFrameIsParsed : Prop :=
  ∀ (s t u : State) (b : Byte) (inst : Instance) (f : List Byte), s.instanceAt s.port = some inst →
    exec (.asmFeed b) s = .next t → t.answer = .frame (some f) → u.data = f →
      (∃ c, exec .prsClass u = .next { u with answer := .payloadClass c }) ∧
      ∀ k : Half, k.toNat < (byteAt f 2).toNat / 2 →
        ∃ w : Int, exec (.prsWord k) u = .next { u with answer := .word w } ∧ -32768 ≤ w ∧ w ≤ 32767

/-- R154: of a well-formed frame with a 24-byte payload, `PRS.WORD` for `k` = 0..11 answers the bytes at offsets `3 +
2k` and `4 + 2k`, and field `k` is axis `k mod 3` of the quantity `k / 3`, in the order acceleration, angular rate,
magnetic field, angle. -/
def Obligations.ImuFieldsStandInOrderAtTheirOffsets : Prop :=
  ∀ (s : State) (k : Half), wellFormedFrame s.data = true → byteAt s.data 2 = 24#8 → k.toNat < 12 →
    exec (.prsWord k) s = .next { s with answer := .word (sint16 (fieldAt s.data (fieldOffset k.toNat))) } ∧
    fieldOffset k.toNat = 3 + 2 * k.toNat ∧
    (imuField k.toNat).map (fun f => f.axis) = some (k.toNat % 3) ∧
    (imuField k.toNat).map (fun f => f.quantity) =
      [ImuQuantity.acceleration, .angularRate, .magneticField, .angle][k.toNat / 3]?

/-! ### Encoder -/

/-- R72, R103, R170: `ENC.READ` answers the 8-byte read request, its checksum here in the direct form, and changes
nothing else, for every operand (R174). Inference that the spec marks as its own: R103. -/
def Obligations.EncReadBuildsTheReadRequest : Prop :=
  ∀ (s : State) (a : Byte) (reg count : Half),
    exec (.encRead a reg count) s = .next { s with answer := .request (stampedRequest a 0x03#8 reg count) }

/-- R72, R103, R171: `ENC.WRITE` answers the 8-byte write request, its checksum here in the direct form, and changes
nothing else, for every operand (R174). Inference that the spec marks as its own: R103. -/
def Obligations.EncWriteBuildsTheWriteRequest : Prop :=
  ∀ (s : State) (a : Byte) (reg value : Half),
    exec (.encWrite a reg value) s = .next { s with answer := .request (stampedRequest a 0x06#8 reg value) }

/-- R10, R103, R172: `ENC.UNLOCK` answers the write request of 0xB588 to register 0x0069, its checksum here in the
direct form, the same as `ENC.WRITE` of these, and changes nothing else. Inference that the spec marks as its own:
R103. -/
def Obligations.EncUnlockBuildsTheUnlockRequest : Prop :=
  ∀ (s : State) (a : Byte),
    exec (.encUnlock a) s = .next { s with answer := .request (stampedRequest a 0x06#8 0x0069#16 0xB588#16) } ∧
    exec (.encUnlock a) s = exec (.encWrite a 0x0069#16 0xB588#16) s

/-- R10, R103, R173: `ENC.SAVE` answers the write request of 0x0000 to register 0x0000, its checksum here in the direct
form, the same as `ENC.WRITE` of these, and changes nothing else. Inference that the spec marks as its own: R103. -/
def Obligations.EncSaveBuildsTheSaveRequest : Prop :=
  ∀ (s : State) (a : Byte),
    exec (.encSave a) s = .next { s with answer := .request (stampedRequest a 0x06#8 0x0000#16 0x0000#16) } ∧
    exec (.encSave a) s = exec (.encWrite a 0x0000#16 0x0000#16) s

/-- R72, R81, R82: what an encoder answers is the wire frame of its row: 8 bytes that decode, as a request, to a read,
write, unlock or save request with the same operands, and whose checksum passes `CRC_OK`. Inferences that the spec marks
as its own: R81 and R82. That the write request of the unlock or save pair is the unlock or save row is log entry 11. -/
def Obligations.EncodedRequestsAreWireFramesWithValidChecksums : Prop :=
  ∀ (s : State) (a : Byte) (reg y : Half),
    ∀ i ∈ [Instr.encRead a reg y, Instr.encWrite a reg y, Instr.encUnlock a, Instr.encSave a],
      ∃ bytes c, exec i s = .next { s with answer := .request bytes } ∧ bytes.length = 8 ∧ crcOk bytes = true ∧
        decode (.wire .request bytes) = .ok
          (match i with
           | .encRead a reg y => .wireReadReq a reg y c
           | .encUnlock a => .wireUnlock a c
           | .encSave a => .wireSave a c
           | _ => writeRequest a reg y c)

/-- R175, R241: the three operations of `ENC.WRITESEQ` answer, in order, the unlock, write and save requests that the
host sends with a wait between each two; no instance changes. The wait is an argument of the host's (log entry 18); that
a request with the unlock or save pair decodes to the row `WIRE.UNLOCK` or `WIRE.SAVE` and not to `WIRE.WRITE_REQ` is
the model's choice (log entry 11). -/
def Obligations.WriteSequenceAnswersUnlockWriteSave : Prop :=
  ∀ (s : State) (p : Nat) (a : Byte) (reg value : Half) (settleMs : Nat),
    ∃ r1 r2 r3 : List Byte,
      (serve (encWriteSeq p a reg value) s).answers = [(p, .request r1), (p, .request r2), (p, .request r3)] ∧
      writeSeqActions settleMs a reg value =
        [.send r1, .waitAtLeast settleMs, .send r2, .waitAtLeast settleMs, .send r3] ∧
      decode (.wire .request r1) = .ok (.wireUnlock a (be16 (byteAt r1 6) (byteAt r1 7))) ∧
      decode (.wire .request r2) = .ok (writeRequest a reg value (be16 (byteAt r2 6) (byteAt r2 7))) ∧
      decode (.wire .request r3) = .ok (.wireSave a (be16 (byteAt r3 6) (byteAt r3 7))) ∧
      (serve (encWriteSeq p a reg value) s).state.instances = s.instances

/-! ### What cannot change, and what cannot be learnt -/

/-- R33: a step changes an instance only where its request is a reset of that instance, or an `ASM.FEED` or arriving
bytes at its interface. That bytes arriving as one request are such feeds, whatever their format, is the model's choice
(log entries 4 and 12). -/
def Obligations.OnlyFeedingAndResetChangeAnInstance : Prop :=
  ∀ (s t : State) (p : Nat), step s = .next t → t.instanceAt p ≠ s.instanceAt p →
    (∃ addrs rest, s.host = .reset p addrs :: rest) ∨
    ∃ code data rest, s.host = .issue p code data :: rest ∧
      ((∃ b, decode code = .ok (.asmFeed b)) ∨ ∃ f bytes, code = .wire f bytes)

/-- R36: no step but a reset of that instance writes an instance's address set, and no step removes an instance. -/
def Obligations.OnlyResetWritesTheAddressSet : Prop :=
  ∀ (s t : State) (p : Nat) (inst : Instance), step s = .next t → s.instanceAt p = some inst →
    (∀ addrs rest, s.host ≠ .reset p addrs :: rest) →
      ∃ inst', t.instanceAt p = some inst' ∧ inst'.addrMask = inst.addrMask

/-- R41, R62: of any list of requests at any instances, resets among them, each instance gives the answers and ends in
the state that it gives and ends in when only its own requests are performed. Inference that the spec marks as its own:
R62. -/
def Obligations.InstancesDoNotInfluenceEachOther : Prop :=
  ∀ (requests : List Request) (s : State) (p : Nat),
    (serve requests s).answers.filter (fun x => x.1 == p) = (serve (requests.filter fun r => r.port == p) s).answers ∧
    (serve requests s).state.instanceAt p = (serve (requests.filter fun r => r.port == p) s).state.instanceAt p

/-- R58, R176: the operations of CHK, PRS and ENC have no side effect, and their results depend on their operands and
data alone: in any two states with the same data channel they answer the same. Inference that the spec marks as its own:
R58. -/
def Obligations.StatelessOperationsDependOnOperandsAlone : Prop :=
  ∀ (s s' : State) (len k : Half) (a : Byte) (reg y : Half), s.data = s'.data →
    ∀ i ∈ [Instr.chkCrc len, Instr.prsWord k, Instr.prsClass, Instr.encRead a reg y, Instr.encWrite a reg y,
        Instr.encUnlock a, Instr.encSave a],
      ∃ answer, exec i s = .next { s with answer := answer } ∧ exec i s' = .next { s' with answer := answer }

/-- R17, R42, R61: no operation reads the answer of an earlier request or the requests still to come: an instance's next
state and the answer are the same whatever they are. That the state holds the two is the model's choice (log entries 1
and 2). -/
def Obligations.NothingReadsTheAnswerOrTheHostsScript : Prop :=
  ∀ (s : State) (i : Instr) (answer : Answer) (host : List Request),
    ∃ t, exec i s = .next t ∧ exec i { s with answer := answer, host := host } = .next { t with host := host } ∧
      t.host = s.host
end

