-- ==== Sys2Proof/Laws/Bits.lean ====
section
/-! SUPPORT. The byte-order helpers and the command word's fields, as numbers and as inverses of each other. -/

namespace Sys2Proof

theorem be16_toNat (h l : Byte) : (be16 h l).toNat = h.toNat * 256 + l.toNat := by
  have hh := h.isLt
  have hl := l.isLt
  have e : h.toNat <<< 8 % 65536 = h.toNat <<< 8 := by
    rw [Nat.shiftLeft_eq]; omega
  simp only [be16, BitVec.toNat_or, BitVec.toNat_shiftLeft, BitVec.toNat_setWidth]
  rw [Nat.mod_eq_of_lt (by omega : h.toNat < 2 ^ 16), Nat.mod_eq_of_lt (by omega : l.toNat < 2 ^ 16), e,
    Nat.shiftLeft_eq, Nat.mul_comm, ← Nat.two_pow_add_eq_or_of_lt hl]

theorem hi8_toNat (v : Half) : (hi8 v).toNat = v.toNat / 256 := by
  have := v.isLt
  simp only [hi8, BitVec.extractLsb'_toNat, Nat.shiftRight_eq_div_pow]
  omega

theorem lo8_toNat (v : Half) : (lo8 v).toNat = v.toNat % 256 := by
  simp [lo8, BitVec.extractLsb'_toNat]

@[simp] theorem be16_hi8_lo8 (v : Half) : be16 (hi8 v) (lo8 v) = v := by
  apply BitVec.eq_of_toNat_eq
  rw [be16_toNat, hi8_toNat, lo8_toNat]
  omega

@[simp] theorem hi8_be16 (h l : Byte) : hi8 (be16 h l) = h := by
  apply BitVec.eq_of_toNat_eq
  have := l.isLt
  rw [hi8_toNat, be16_toNat]
  omega

@[simp] theorem lo8_be16 (h l : Byte) : lo8 (be16 h l) = l := by
  apply BitVec.eq_of_toNat_eq
  have := l.isLt
  rw [lo8_toNat, be16_toNat]
  omega

theorem encodeCommand_toNat (op : BitVec 4) (a : Byte) (x y : Half) :
    (encodeCommand op a x y).toNat = op.toNat * 2 ^ 44 + a.toNat * 2 ^ 32 + x.toNat * 2 ^ 16 + y.toNat := by
  have ha := a.isLt
  have hx := x.isLt
  have hy := y.isLt
  simp only [encodeCommand, BitVec.toNat_append, Nat.shiftLeft_eq]
  rw [Nat.mul_comm _ (2 ^ 16), ← Nat.two_pow_add_eq_or_of_lt hy, Nat.mul_comm _ (2 ^ 16),
    ← Nat.two_pow_add_eq_or_of_lt hx, Nat.mul_comm _ (2 ^ 8), ← Nat.two_pow_add_eq_or_of_lt ha,
    Nat.mul_comm _ (2 ^ 4), ← Nat.two_pow_add_eq_or_of_lt (0#4).isLt]
  simp
  omega

theorem cmd_fields_toNat (w : CmdWord) :
    (cmdOp w).toNat = w.toNat / 2 ^ 44 ∧ (cmdRsv w).toNat = w.toNat / 2 ^ 40 % 16 ∧
      (cmdA w).toNat = w.toNat / 2 ^ 32 % 256 ∧ (cmdX w).toNat = w.toNat / 2 ^ 16 % 65536 ∧
      (cmdY w).toNat = w.toNat % 65536 := by
  have := w.isLt
  simp only [cmdOp, cmdRsv, cmdA, cmdX, cmdY, BitVec.extractLsb'_toNat, Nat.shiftRight_eq_div_pow]
  refine ⟨?_, ?_, ?_, ?_, ?_⟩ <;> norm_num
  omega

@[simp] theorem cmdOp_encodeCommand (op : BitVec 4) (a : Byte) (x y : Half) :
    cmdOp (encodeCommand op a x y) = op := by
  apply BitVec.eq_of_toNat_eq
  have := a.isLt; have := x.isLt; have := y.isLt
  rw [(cmd_fields_toNat _).1, encodeCommand_toNat]
  omega

@[simp] theorem cmdRsv_encodeCommand (op : BitVec 4) (a : Byte) (x y : Half) :
    cmdRsv (encodeCommand op a x y) = 0#4 := by
  apply BitVec.eq_of_toNat_eq
  have := a.isLt; have := x.isLt; have := y.isLt
  rw [(cmd_fields_toNat _).2.1, encodeCommand_toNat]
  simp only [BitVec.toNat_ofNat]
  omega

@[simp] theorem cmdA_encodeCommand (op : BitVec 4) (a : Byte) (x y : Half) :
    cmdA (encodeCommand op a x y) = a := by
  apply BitVec.eq_of_toNat_eq
  have := a.isLt; have := x.isLt; have := y.isLt
  rw [(cmd_fields_toNat _).2.2.1, encodeCommand_toNat]
  omega

@[simp] theorem cmdX_encodeCommand (op : BitVec 4) (a : Byte) (x y : Half) :
    cmdX (encodeCommand op a x y) = x := by
  apply BitVec.eq_of_toNat_eq
  have := a.isLt; have := x.isLt; have := y.isLt
  rw [(cmd_fields_toNat _).2.2.2.1, encodeCommand_toNat]
  omega

@[simp] theorem cmdY_encodeCommand (op : BitVec 4) (a : Byte) (x y : Half) :
    cmdY (encodeCommand op a x y) = y := by
  apply BitVec.eq_of_toNat_eq
  have := a.isLt; have := x.isLt; have := y.isLt
  rw [(cmd_fields_toNat _).2.2.2.2, encodeCommand_toNat]
  omega

/-- A command word whose `RSV` is 0 is the encoding of its fields. -/
theorem encodeCommand_cmd_fields (w : CmdWord) (h : cmdRsv w = 0#4) :
    encodeCommand (cmdOp w) (cmdA w) (cmdX w) (cmdY w) = w := by
  apply BitVec.eq_of_toNat_eq
  obtain ⟨ho, hr, ha, hx, hy⟩ := cmd_fields_toNat w
  rw [h] at hr
  rw [encodeCommand_toNat, ho, ha, hx, hy]
  simp only [BitVec.toNat_ofNat] at hr
  omega

end Sys2Proof
end

