-- ==== Sys2Proof/Laws/Crc.lean ====
section
/-! SUPPORT. The checksum: the accumulators of a concatenation, the tables at every index, and one step. -/

namespace Sys2Proof.Machine

@[simp] theorem crcAcc_nil (acc : Acc) : crcAcc acc [] = acc := rfl
@[simp] theorem crcAcc_cons (acc : Acc) (b : Byte) (s : List Byte) :
    crcAcc acc (b :: s) = crcAcc (crcStep acc b) s := rfl
theorem crcAcc_append (acc : Acc) (s t : List Byte) : crcAcc acc (s ++ t) = crcAcc (crcAcc acc s) t := by
  simp [crcAcc, List.foldl_append]

@[simp] theorem crcStep_hi (acc : Acc) (b : Byte) :
    (crcStep acc b).hi = acc.lo ^^^ romByte .romHi (acc.hi ^^^ b) := rfl
@[simp] theorem crcStep_lo (acc : Acc) (b : Byte) : (crcStep acc b).lo = romByte .romLo (acc.hi ^^^ b) := rfl

@[simp] theorem hi8_crc (s : List Byte) : hi8 (crc s) = (crcAcc accInit s).hi := by simp [crc]
@[simp] theorem lo8_crc (s : List Byte) : lo8 (crc s) = (crcAcc accInit s).lo := by simp [crc]

theorem romHi_length : romHi.length = 256 := by decide +kernel
theorem romLo_length : romLo.length = 256 := by decide +kernel

/-- A table index is a `u8`, so a table read is always inside the table (R50). -/
theorem memRead_rom_isSome (idx : Byte) :
    (memRead [] .romHi idx.toNat).isSome ∧ (memRead [] .romLo idx.toNat).isSome := by
  have := idx.isLt
  constructor
  · simpa [memRead, spaceBytes, romHi_length] using this
  · simpa [memRead, spaceBytes, romLo_length] using this

end Sys2Proof.Machine
end

