-- ==== Sys2Proof/Laws/State.lean ====
section
/-! SUPPORT. One lemma per field of State for each named update of it. -/

namespace Sys2Proof.Machine

@[simp] theorem State.reply_instances (s : State) (a : Answer) : (s.reply a).instances = s.instances := rfl
@[simp] theorem State.reply_port (s : State) (a : Answer) : (s.reply a).port = s.port := rfl
@[simp] theorem State.reply_data (s : State) (a : Answer) : (s.reply a).data = s.data := rfl
@[simp] theorem State.reply_host (s : State) (a : Answer) : (s.reply a).host = s.host := rfl
@[simp] theorem State.reply_answer (s : State) (a : Answer) : (s.reply a).answer = a := rfl

@[simp] theorem State.refuse_instances (s : State) (r : Reason) : (s.refuse r).instances = s.instances := rfl
@[simp] theorem State.refuse_port (s : State) (r : Reason) : (s.refuse r).port = s.port := rfl
@[simp] theorem State.refuse_data (s : State) (r : Reason) : (s.refuse r).data = s.data := rfl
@[simp] theorem State.refuse_host (s : State) (r : Reason) : (s.refuse r).host = s.host := rfl
@[simp] theorem State.refuse_answer (s : State) (r : Reason) : (s.refuse r).answer = .refused r := rfl

@[simp] theorem State.setInstance_instances (s : State) (p : Nat) (i : Instance) :
    (s.setInstance p i).instances = putInstance p i s.instances := rfl
@[simp] theorem State.setInstance_port (s : State) (p : Nat) (i : Instance) : (s.setInstance p i).port = s.port := rfl
@[simp] theorem State.setInstance_data (s : State) (p : Nat) (i : Instance) : (s.setInstance p i).data = s.data := rfl
@[simp] theorem State.setInstance_host (s : State) (p : Nat) (i : Instance) : (s.setInstance p i).host = s.host := rfl
@[simp] theorem State.setInstance_answer (s : State) (p : Nat) (i : Instance) :
    (s.setInstance p i).answer = s.answer := rfl

@[simp] theorem acceptRequest_instances (p : Nat) (d : List Byte) (rest : List Request) (s : State) :
    (acceptRequest p d rest s).instances = s.instances := rfl
@[simp] theorem acceptRequest_port (p : Nat) (d : List Byte) (rest : List Request) (s : State) :
    (acceptRequest p d rest s).port = p := rfl
@[simp] theorem acceptRequest_data (p : Nat) (d : List Byte) (rest : List Request) (s : State) :
    (acceptRequest p d rest s).data = d := rfl
@[simp] theorem acceptRequest_host (p : Nat) (d : List Byte) (rest : List Request) (s : State) :
    (acceptRequest p d rest s).host = rest := rfl
@[simp] theorem acceptRequest_answer (p : Nat) (d : List Byte) (rest : List Request) (s : State) :
    (acceptRequest p d rest s).answer = s.answer := rfl

@[simp] theorem applyReset_instances (p : Nat) (a : AddrMask) (s : State) :
    (applyReset p a s).instances = putInstance p { buf := [], addrMask := a } s.instances := rfl
@[simp] theorem applyReset_port (p : Nat) (a : AddrMask) (s : State) : (applyReset p a s).port = s.port := rfl
@[simp] theorem applyReset_data (p : Nat) (a : AddrMask) (s : State) : (applyReset p a s).data = s.data := rfl
@[simp] theorem applyReset_host (p : Nat) (a : AddrMask) (s : State) : (applyReset p a s).host = s.host := rfl
@[simp] theorem applyReset_answer (p : Nat) (a : AddrMask) (s : State) : (applyReset p a s).answer = .nothing := rfl

end Sys2Proof.Machine
end

