-- ==== Sys2Proof/Laws/Instances.lean ====
section
/-! SUPPORT. The instances' storage: a read after a write, and that a write keeps the canonical form (`Memory.wf`). -/

namespace Sys2Proof.Machine

@[simp] theorem findInstance_put_same (p : Nat) (i : Instance) (l : List (Nat × Instance)) :
    findInstance p (putInstance p i l) = some i := by
  induction l with
  | nil => simp [putInstance, findInstance]
  | cons x rest ih =>
    obtain ⟨q, old⟩ := x
    simp only [putInstance]
    split
    · simp [findInstance]
    · split
      · simp [findInstance]
      · simp [findInstance, *]

@[simp] theorem findInstance_put_other {p q : Nat} (h : q ≠ p) (i : Instance) (l : List (Nat × Instance)) :
    findInstance q (putInstance p i l) = findInstance q l := by
  induction l with
  | nil => simp [putInstance, findInstance, h]
  | cons x rest ih =>
    obtain ⟨r, old⟩ := x
    simp only [putInstance]
    split
    · simp [findInstance, h]
    · split
      · subst_vars
        simp [findInstance, h]
      · simp [findInstance, ih]

@[simp] theorem State.instanceAt_reply (s : State) (a : Answer) (p : Nat) :
    (s.reply a).instanceAt p = s.instanceAt p := rfl
@[simp] theorem State.instanceAt_refuse (s : State) (r : Reason) (p : Nat) :
    (s.refuse r).instanceAt p = s.instanceAt p := rfl
@[simp] theorem State.instanceAt_accept (s : State) (q : Nat) (d : List Byte) (rest : List Request) (p : Nat) :
    (acceptRequest q d rest s).instanceAt p = s.instanceAt p := rfl
@[simp] theorem State.instanceAt_setInstance_same (s : State) (p : Nat) (i : Instance) :
    (s.setInstance p i).instanceAt p = some i := findInstance_put_same p i s.instances
@[simp] theorem State.instanceAt_setInstance_other (s : State) {p q : Nat} (h : q ≠ p) (i : Instance) :
    (s.setInstance p i).instanceAt q = s.instanceAt q := findInstance_put_other h i s.instances

theorem findInstance_mem {p : Nat} {i : Instance} {l : List (Nat × Instance)} (h : findInstance p l = some i) :
    (p, i) ∈ l := by
  induction l with
  | nil => simp [findInstance] at h
  | cons x rest ih =>
    obtain ⟨q, old⟩ := x
    simp only [findInstance] at h
    split at h
    · subst_vars
      simp_all
    · simp [ih h]

theorem mem_putInstance {p : Nat} {i : Instance} {l : List (Nat × Instance)} {x : Nat × Instance}
    (h : x ∈ putInstance p i l) : x = (p, i) ∨ x ∈ l := by
  induction l with
  | nil => simpa [putInstance] using h
  | cons y rest ih =>
    obtain ⟨q, old⟩ := y
    simp only [putInstance] at h
    split at h
    · simpa using h
    · split at h
      · simp only [List.mem_cons] at h ⊢
        tauto
      · simp only [List.mem_cons] at h ⊢
        rcases h with h | h
        · exact .inr (.inl h)
        · rcases ih h with h | h <;> simp [h]

theorem putInstance_pairwise (p : Nat) (i : Instance) (l : List (Nat × Instance))
    (h : l.Pairwise (fun x y => x.1 < y.1)) : (putInstance p i l).Pairwise (fun x y => x.1 < y.1) := by
  induction l with
  | nil => simp [putInstance]
  | cons y rest ih =>
    obtain ⟨q, old⟩ := y
    rw [List.pairwise_cons] at h
    simp only [putInstance]
    split
    · rename_i hlt
      refine List.pairwise_cons.2 ⟨?_, List.pairwise_cons.2 h⟩
      intro x hx
      rcases List.mem_cons.1 hx with rfl | hx
      · exact hlt
      · exact lt_trans hlt (h.1 x hx)
    · split
      · rename_i heq
        subst heq
        exact List.pairwise_cons.2 h
      · refine List.pairwise_cons.2 ⟨?_, ih h.2⟩
        intro x hx
        rcases mem_putInstance hx with rfl | hx
        · simp only
          omega
        · exact h.1 x hx

/-- Storing an instance whose `BUF` is within the bound keeps the canonical form. -/
theorem putInstance_wf {p : Nat} {i : Instance} {l : List (Nat × Instance)} (h : Memory.wf l)
    (hi : i.buf.length < Config.bufCap) : Memory.wf (putInstance p i l) :=
  ⟨putInstance_pairwise p i l h.1, fun x hx => by
    rcases mem_putInstance hx with rfl | hx
    · exact hi
    · exact h.2 x hx⟩

end Sys2Proof.Machine
end

