-- ==== Sys2Proof/Laws/Settle.lean ====
section
/-! SUPPORT. The settle loop: what each verdict says of the buffer, what one iteration does, and everything the loop can
leave. -/

namespace Sys2Proof.Machine

@[simp] theorem byteAt_nil (i : Nat) : byteAt [] i = 0#8 := rfl
@[simp] theorem byteAt_cons_zero (b : Byte) (s : List Byte) : byteAt (b :: s) 0 = b := rfl
@[simp] theorem byteAt_cons_succ (b : Byte) (s : List Byte) (i : Nat) : byteAt (b :: s) (i + 1) = byteAt s i := rfl

theorem byteAt_append_left {s : List Byte} {i : Nat} (h : i < s.length) (t : List Byte) :
    byteAt (s ++ t) i = byteAt s i := by
  simp [byteAt, memRead, spaceBytes, List.getElem?_append_left h]

theorem byteAt_take {s : List Byte} {n i : Nat} (h : i < n) : byteAt (s.take n) i = byteAt s i := by
  simp [byteAt, memRead, spaceBytes, List.getElem?_take_of_lt h]

theorem byteCount_lt (f : List Byte) : byteCount f < 256 := (byteAt f 2).isLt

/-- What it means that the verdict is to emit `n` bytes (R122, R127): every test passed. -/
theorem verdict_emit {mask : AddrMask} {buf : List Byte} {n : Nat} (h : verdict mask buf = .emit n) :
    n = expectedLength buf ∧ inAddrs mask (byteAt buf 0) = true ∧ byteAt buf 1 = Config.fcRead ∧
      n ≤ buf.length ∧ crcOk (buf.take n) = true := by
  unfold verdict at h
  split at h <;> try simp at h
  split at h <;> try simp at h
  split at h <;> try simp at h
  split at h <;> try simp at h
  split at h <;> try simp at h
  split at h <;> simp at h
  subst h
  simp_all

theorem verdict_empty {mask : AddrMask} {buf : List Byte} (h : verdict mask buf = .empty) : buf = [] := by
  unfold verdict at h
  split at h
  · exact List.length_eq_zero_iff.1 ‹_›
  · repeat' split at h
    all_goals simp at h

/-- What it means that the function code is not yet tested (R125). -/
theorem verdict_functionPending {mask : AddrMask} {buf : List Byte} (h : verdict mask buf = .functionPending) :
    inAddrs mask (byteAt buf 0) = true ∧ buf.length ≤ 2 := by
  unfold verdict at h
  repeat' split at h
  all_goals simp_all

/-- What it means that the candidate is incomplete (R126). -/
theorem verdict_incomplete {mask : AddrMask} {buf : List Byte} (h : verdict mask buf = .incomplete) :
    inAddrs mask (byteAt buf 0) = true ∧ byteAt buf 1 = Config.fcRead ∧ buf.length < expectedLength buf := by
  unfold verdict at h
  repeat' split at h
  all_goals simp_all

/-- The settle loop on an empty buffer returns NONE. -/
@[simp] theorem settle_nil (mask : AddrMask) : settle mask [] = { emitted := none, buf := [] } := rfl

/-- One iteration of the settle loop, by the verdict of its tests. -/
theorem settle_cons (mask : AddrMask) (b : Byte) (rest : List Byte) :
    settle mask (b :: rest) =
      match verdict mask (b :: rest) with
      | .empty => { emitted := none, buf := b :: rest }
      | .wrongAddress => settle mask rest
      | .functionPending => { emitted := none, buf := b :: rest }
      | .wrongFunction => settle mask rest
      | .incomplete => { emitted := none, buf := b :: rest }
      | .badChecksum => settle mask rest
      | .emit n => { emitted := some ((b :: rest).take n), buf := bufDropFront n (b :: rest) } := by
  cases h : verdict mask (b :: rest) <;> simp only [settle, h]

/-- Everything the settle loop can do: after dropping some bytes from the front it holds a buffer on which its verdict is to
return NONE, or to emit the first bytes. -/
theorem settle_cases (mask : AddrMask) (buf : List Byte) :
    ∃ dropped held, buf = dropped ++ held ∧
      ((settle mask buf = { emitted := none, buf := held } ∧
          (held = [] ∨ verdict mask held = .functionPending ∨ verdict mask held = .incomplete)) ∨
        ∃ n, verdict mask held = .emit n ∧
          settle mask buf = { emitted := some (held.take n), buf := held.drop n }) := by
  induction buf with
  | nil => exact ⟨[], [], rfl, .inl ⟨rfl, .inl rfl⟩⟩
  | cons b rest ih =>
    obtain ⟨dropped, held, hbuf, hcase⟩ := ih
    have again (hs : settle mask (b :: rest) = settle mask rest) :
        ∃ dropped held, b :: rest = dropped ++ held ∧
          ((settle mask (b :: rest) = { emitted := none, buf := held } ∧
              (held = [] ∨ verdict mask held = .functionPending ∨ verdict mask held = .incomplete)) ∨
            ∃ n, verdict mask held = .emit n ∧
              settle mask (b :: rest) = { emitted := some (held.take n), buf := held.drop n }) :=
      ⟨b :: dropped, held, by simp [hbuf], by rw [hs]; exact hcase⟩
    have stop := settle_cons mask b rest
    cases hv : verdict mask (b :: rest) with
    | empty => exact absurd (verdict_empty hv) (by simp)
    | wrongAddress => exact again (by rw [stop, hv])
    | functionPending => exact ⟨[], b :: rest, rfl, .inl ⟨by rw [stop, hv], .inr (.inl hv)⟩⟩
    | wrongFunction => exact again (by rw [stop, hv])
    | incomplete => exact ⟨[], b :: rest, rfl, .inl ⟨by rw [stop, hv], .inr (.inr hv)⟩⟩
    | badChecksum => exact again (by rw [stop, hv])
    | emit n => exact ⟨[], b :: rest, rfl, .inr ⟨n, hv, by rw [stop, hv]; rfl⟩⟩

@[simp] theorem length_bufAppend (buf : List Byte) (b : Byte) : (bufAppend buf b).length = buf.length + 1 := by
  simp [bufAppend]

@[simp] theorem length_bufDropFront (k : Nat) (buf : List Byte) : (bufDropFront k buf).length = buf.length - k := by
  simp [bufDropFront]

end Sys2Proof.Machine
end

