-- ==== Sys2Proof/Laws/Feed.lean ====
section
/-! SUPPORT. Feeding one byte and feeding several: everything a feed can do, the length bound it keeps, and the feeding of
a concatenation. -/

namespace Sys2Proof.Machine

/-- Everything one `ASM.FEED` can do to a buffer (R121, R122): `settle_cases` after the append. -/
theorem feed_cases (mask : AddrMask) (buf : List Byte) (b : Byte) :
    ∃ dropped held, buf ++ [b] = dropped ++ held ∧
      ((feed mask buf b = { emitted := none, buf := held } ∧
          (held = [] ∨ verdict mask held = .functionPending ∨ verdict mask held = .incomplete)) ∨
        ∃ n, verdict mask held = .emit n ∧
          feed mask buf b = { emitted := some (held.take n), buf := held.drop n }) :=
  settle_cases mask (buf ++ [b])

/-- A feed leaves at most 259 bytes of at most 260 (R130): it holds an incomplete candidate, or has removed a frame. -/
theorem length_feed (mask : AddrMask) {buf : List Byte} (h : buf.length < Config.bufCap) (b : Byte) :
    (feed mask buf b).buf.length < Config.bufCap := by
  obtain ⟨dropped, held, hbuf, hcase⟩ := feed_cases mask buf b
  have hlen : held.length ≤ buf.length + 1 := by
    have := congrArg List.length hbuf
    simp at this
    omega
  have hc := byteCount_lt held
  rcases hcase with ⟨heq, hv⟩ | ⟨n, hv, heq⟩
  · rw [heq]
    rcases hv with rfl | hv | hv
    · simp [Config.bufCap]
    · have := (verdict_functionPending hv).2
      simp only [Config.bufCap]
      omega
    · have := (verdict_incomplete hv).2.2
      simp only [expectedLength, Config.frameOverhead, Config.bufCap] at this ⊢
      omega
  · rw [heq]
    obtain ⟨hn, -, -, hle, -⟩ := verdict_emit hv
    simp only [expectedLength, Config.frameOverhead, Config.bufCap, List.length_drop] at *
    omega

@[simp] theorem consEmission_none (i : Nat) (es : List (Nat × List Byte)) : consEmission i none es = es := rfl
@[simp] theorem consEmission_some (i : Nat) (f : List Byte) (es : List (Nat × List Byte)) :
    consEmission i (some f) es = (i, f) :: es := rfl

@[simp] theorem feedMany_nil (mask : AddrMask) (i : Nat) (buf : List Byte) :
    feedMany mask i buf [] = { emissions := [], buf := buf } := rfl
theorem feedMany_cons (mask : AddrMask) (i : Nat) (buf : List Byte) (b : Byte) (rest : List Byte) :
    feedMany mask i buf (b :: rest) =
      { emissions := consEmission i (feed mask buf b).emitted (feedMany mask (i + 1) (feed mask buf b).buf rest).emissions
        buf := (feedMany mask (i + 1) (feed mask buf b).buf rest).buf } := rfl

/-- Feeding a concatenation is feeding its parts one after the other (R131). -/
theorem feedMany_append (mask : AddrMask) (xs ys : List Byte) : ∀ (i : Nat) (buf : List Byte),
    feedMany mask i buf (xs ++ ys) =
      { emissions := (feedMany mask i buf xs).emissions ++
          (feedMany mask (i + xs.length) (feedMany mask i buf xs).buf ys).emissions
        buf := (feedMany mask (i + xs.length) (feedMany mask i buf xs).buf ys).buf } := by
  induction xs with
  | nil => intro i buf; simp
  | cons b rest ih =>
    intro i buf
    simp only [List.cons_append, feedMany_cons, ih, List.length_cons, Nat.add_assoc, Nat.add_comm 1]
    cases (feed mask buf b).emitted <;> simp

/-- The buffer that feeding leaves does not depend on the index of the first byte. -/
theorem feedMany_buf_index (mask : AddrMask) (bytes : List Byte) : ∀ (i j : Nat) (buf : List Byte),
    (feedMany mask i buf bytes).buf = (feedMany mask j buf bytes).buf := by
  induction bytes with
  | nil => intro i j buf; rfl
  | cons b rest ih => intro i j buf; exact ih (i + 1) (j + 1) (feed mask buf b).buf

theorem length_feedMany (mask : AddrMask) (bytes : List Byte) : ∀ (i : Nat) {buf : List Byte},
    buf.length < Config.bufCap → (feedMany mask i buf bytes).buf.length < Config.bufCap := by
  induction bytes with
  | nil => intro i buf h; simpa using h
  | cons b rest ih => intro i buf h; exact ih (i + 1) (length_feed mask h b)

/-- What a chunk does at a port that was reset (R131). -/
theorem feedChunk_of_current {s : State} {inst : Instance} (h : s.current = some inst) (bytes : List Byte) :
    feedChunk bytes s =
      (s.setInstance s.port { inst with buf := (feedMany inst.addrMask 0 inst.buf bytes).buf }).reply
        (.emissions (feedMany inst.addrMask 0 inst.buf bytes).emissions) := by
  simp [feedChunk, h]

/-- What a chunk does at a port that was never reset: no instance changes (R203, R233). -/
theorem feedChunk_of_none {s : State} (h : s.current = none) (bytes : List Byte) :
    ∃ a, feedChunk bytes s = s.reply a := by
  simp only [feedChunk, h]
  split
  · exact ⟨_, rfl⟩
  · exact ⟨.refused .notReset, rfl⟩

end Sys2Proof.Machine
end

