-- ==== Sys2Proof/Laws/PerInstr.lean ====
section
/-! SUPPORT. For every instruction: its encoding has the shape of its row of the opcode table (R71, R72, R77, R78). -/

namespace Sys2Proof.Laws.EncodedShape

/-- The shape of an encoding: a command word has an assigned operation code and `RSV` 0; a request has 8 bytes and function
code 0x03 or 0x06; a response has function code 0x03 and `byte_count + 5` bytes. -/
def shaped : Code → Prop
  | .command w => (cmdOp w).toNat < 8 ∧ cmdRsv w = 0#4
  | .wire .request bytes =>
    bytes.length = 8 ∧ (Machine.byteAt bytes 1 = Config.fcRead ∨ Machine.byteAt bytes 1 = Config.fcWrite)
  | .wire .response bytes => Machine.byteAt bytes 1 = Config.fcRead ∧ bytes.length = Machine.expectedLength bytes

/-- The encoding of a well-formed instruction has its row's shape. -/
def Statement (i : Instr) : Prop := i.wf = true → shaped (encode i)

theorem command_shaped {op : BitVec 4} (h : op.toNat < 8) (a : Byte) (x y : Half) :
    shaped (.command (encodeCommand op a x y)) := by
  simp [shaped, h]

theorem request_shaped {f : Byte} (h : f = Config.fcRead ∨ f = Config.fcWrite) (a : Byte) (x y crc : Half) :
    shaped (.wire .request (requestBytes a f x y crc)) := ⟨rfl, h⟩

theorem chkCrc (len : Half) : Statement (.chkCrc len) := fun _ => command_shaped (by decide) _ _ _
theorem asmFeed (b : Byte) : Statement (.asmFeed b) := fun _ => command_shaped (by decide) _ _ _
theorem prsWord (k : Half) : Statement (.prsWord k) := fun _ => command_shaped (by decide) _ _ _
theorem prsClass : Statement .prsClass := fun _ => command_shaped (by decide) _ _ _
theorem encRead (a : Byte) (reg count : Half) : Statement (.encRead a reg count) :=
  fun _ => command_shaped (by decide) _ _ _
theorem encWrite (a : Byte) (reg value : Half) : Statement (.encWrite a reg value) :=
  fun _ => command_shaped (by decide) _ _ _
theorem encUnlock (a : Byte) : Statement (.encUnlock a) := fun _ => command_shaped (by decide) _ _ _
theorem encSave (a : Byte) : Statement (.encSave a) := fun _ => command_shaped (by decide) _ _ _
theorem wireReadReq (a : Byte) (reg count crc : Half) : Statement (.wireReadReq a reg count crc) :=
  fun _ => request_shaped (.inl rfl) _ _ _ _
theorem wireWriteReq (a : Byte) (reg value crc : Half) : Statement (.wireWriteReq a reg value crc) :=
  fun _ => request_shaped (.inr rfl) _ _ _ _
theorem wireUnlock (a : Byte) (crc : Half) : Statement (.wireUnlock a crc) :=
  fun _ => request_shaped (.inr rfl) _ _ _ _
theorem wireSave (a : Byte) (crc : Half) : Statement (.wireSave a crc) :=
  fun _ => request_shaped (.inr rfl) _ _ _ _
theorem wireReadResp (a : Byte) (payload : List Byte) (crc : Half) : Statement (.wireReadResp a payload crc) := by
  intro h
  have hp : payload.length ≤ 255 := by simpa [Instr.wf] using h
  refine ⟨rfl, ?_⟩
  have : (BitVec.ofNat 8 payload.length).toNat = payload.length := by simp; omega
  simp only [responseBytes, Machine.expectedLength, Machine.byteCount, Machine.byteAt, Machine.memRead,
    Machine.spaceBytes, Config.frameOverhead]
  simp
  omega

end Sys2Proof.Laws.EncodedShape
end

