-- ==== Sys2Proof/Laws/Step.lean ====
section
/-! SUPPORT. Everything an instruction and the taking of a request can do, said once. -/

namespace Sys2Proof.Machine

/-- Everything `exec` can do: answer only; feed one byte to the instance at the port; or feed a wire frame's bytes. -/
theorem exec_cases (i : Instr) (s : State) :
    (∃ a, exec i s = .next (s.reply a)) ∨
    (∃ b inst, i = .asmFeed b ∧ s.current = some inst ∧
      exec i s = .next ((s.setInstance s.port { inst with buf := (feed inst.addrMask inst.buf b).buf }).reply
        (.frame (feed inst.addrMask inst.buf b).emitted))) ∨
    (∃ f bytes, encode i = .wire f bytes ∧ exec i s = .next (feedChunk bytes s)) := by
  cases i with
  | asmFeed b =>
    cases h : s.current with
    | none => exact .inl ⟨.refused .notReset, by simp [exec, execAsmFeed, h, State.refuse, State.reply]⟩
    | some inst => exact .inr (.inl ⟨b, inst, rfl, rfl, by simp [exec, execAsmFeed, h]⟩)
  | chkCrc len =>
    left
    simp only [exec, execChkCrc]
    split
    · exact ⟨.refused .crcLength, rfl⟩
    · split
      · exact ⟨_, rfl⟩
      · exact ⟨.refused .crcLength, rfl⟩
  | prsWord k =>
    left
    simp only [exec, execPrsWord]
    split
    · exact ⟨.refused .malformedFrame, rfl⟩
    · split
      · exact ⟨_, rfl⟩
      · exact ⟨.refused .fieldIndex, rfl⟩
  | prsClass =>
    left
    simp only [exec, execPrsClass]
    split
    · exact ⟨_, rfl⟩
    · exact ⟨.refused .malformedFrame, rfl⟩
  | encRead a reg count => exact .inl ⟨_, rfl⟩
  | encWrite a reg value => exact .inl ⟨_, rfl⟩
  | encUnlock a => exact .inl ⟨_, rfl⟩
  | encSave a => exact .inl ⟨_, rfl⟩
  | wireReadReq a reg count crc => exact .inr (.inr ⟨_, _, rfl, rfl⟩)
  | wireWriteReq a reg value crc => exact .inr (.inr ⟨_, _, rfl, rfl⟩)
  | wireUnlock a crc => exact .inr (.inr ⟨_, _, rfl, rfl⟩)
  | wireSave a crc => exact .inr (.inr ⟨_, _, rfl, rfl⟩)
  | wireReadResp a payload crc => exact .inr (.inr ⟨_, _, rfl, rfl⟩)

/-- Everything the taking of a request can do. -/
theorem fetch_cases (s : State) :
    (s.host = [] ∧ fetch s = .settled s) ∨
    (∃ port addrs rest, s.host = .reset port addrs :: rest ∧
      fetch s = .settled (applyReset port addrs (acceptRequest port [] rest s))) ∨
    (∃ port code data rest, s.host = .issue port code data :: rest ∧
      ((∃ i, decode code = .ok i ∧ fetch s = .run i (acceptRequest port data rest s)) ∨
        ∃ r, decode code = .error r ∧ fetch s = .settled (performUndecoded code r (acceptRequest port data rest s)))) := by
  unfold fetch
  cases s.host with
  | nil => exact .inl ⟨rfl, rfl⟩
  | cons req rest =>
    cases req with
    | reset port addrs => exact .inr (.inl ⟨port, addrs, rest, rfl, rfl⟩)
    | issue port code data =>
      refine .inr (.inr ⟨port, code, data, rest, rfl, ?_⟩)
      cases h : decode code with
      | ok i => exact .inl ⟨i, rfl, by simp [h]⟩
      | error r => exact .inr ⟨r, rfl, by simp [h]⟩

/-- What becomes of an encoding that stands for no instruction: a refusal, or plain stream bytes. -/
theorem performUndecoded_cases (code : Code) (r : Reject) (s : State) :
    (∃ w, code = .command w ∧ ∃ reason, performUndecoded code r s = s.refuse reason) ∨
    (∃ f bytes, code = .wire f bytes ∧ performUndecoded code r s = feedChunk bytes s) := by
  cases code with
  | command w => cases r <;> exact .inl ⟨w, rfl, _, rfl⟩
  | wire f bytes => exact .inr ⟨f, bytes, rfl, rfl⟩

end Sys2Proof.Machine
end

