-- ==== Sys2Proof/Laws/Serve.lean ====
section
/-! SUPPORT. The performing of a list of requests, and everything `ASM.FEEDN` does at a port that was reset. -/

namespace Sys2Proof.Machine

/-- What each feed of a stream answers: NONE, or the frame emitted. -/
def feedAnswers (mask : AddrMask) : List Byte → List Byte → List (Option (List Byte))
  | _, [] => []
  | buf, b :: rest => (feed mask buf b).emitted :: feedAnswers mask (feed mask buf b).buf rest

@[simp] theorem length_feedAnswers (mask : AddrMask) (bytes : List Byte) : ∀ buf : List Byte,
    (feedAnswers mask buf bytes).length = bytes.length := by
  induction bytes with
  | nil => intro buf; rfl
  | cons b rest ih => intro buf; simp [feedAnswers, ih]

@[simp] theorem serve_nil (s : State) : serve [] s = { answers := [], state := s } := rfl

/-- One request served, then the others. -/
theorem serve_cons {r : Request} {s t : State} (h : step { s with host := [r] } = .next t) (rest : List Request) :
    serve (r :: rest) s =
      { answers := (r.port, t.answer) :: (serve rest t).answers, state := (serve rest t).state } := by
  simp only [serve, h]

/-- The step of an `ASM.FEED` request at a port that was reset. -/
theorem step_feed_request (s : State) (p : Nat) (b : Byte) {inst : Instance} (h : s.instanceAt p = some inst) :
    step { s with host := [requestOf p (.asmFeed b) []] } =
      .next { instances := putInstance p { inst with buf := (feed inst.addrMask inst.buf b).buf } s.instances
              port := p
              data := []
              host := []
              answer := .frame (feed inst.addrMask inst.buf b).emitted } := by
  have hd : decode (encode (.asmFeed b)) = .ok (.asmFeed b) := by
    simp [encode, decode, decodeCommand, opOfBits, assemble, requireZero]
  have hc : (acceptRequest p [] [] { s with host := [requestOf p (.asmFeed b) []] }).current = some inst := h
  simp only [step, fetch, requestOf, hd]
  simp only [requestOf] at hc
  simp only [exec, execAsmFeed, hc]
  rfl

/-- Everything `ASM.FEEDN` does at a port that was reset (R131): the answers, the instances, the frames with indices. -/
theorem serve_asmFeedN (p : Nat) (mask : AddrMask) (bytes : List Byte) : ∀ (s : State) (buf : List Byte),
    s.instanceAt p = some { buf := buf, addrMask := mask } →
      (serve (asmFeedN p bytes) s).answers = (feedAnswers mask buf bytes).map (fun e => (p, Answer.frame e)) ∧
      (serve (asmFeedN p bytes) s).state.instanceAt p =
        some { buf := (feedMany mask 0 buf bytes).buf, addrMask := mask } ∧
      ∀ q, q ≠ p → (serve (asmFeedN p bytes) s).state.instanceAt q = s.instanceAt q := by
  induction bytes with
  | nil => intro s buf h; exact ⟨rfl, h, fun _ _ => rfl⟩
  | cons b rest ih =>
    intro s buf h
    have hs := step_feed_request s p b h
    have hi := ih { instances := putInstance p { buf := (feed mask buf b).buf, addrMask := mask } s.instances
                    port := p
                    data := []
                    host := []
                    answer := .frame (feed mask buf b).emitted } (feed mask buf b).buf (findInstance_put_same p _ _)
    have hcons : asmFeedN p (b :: rest) = requestOf p (.asmFeed b) [] :: asmFeedN p rest := rfl
    rw [hcons, serve_cons hs]
    refine ⟨?_, ?_, ?_⟩
    · simp only [feedAnswers, List.map_cons]
      rw [hi.1]
      rfl
    · rw [hi.2.1, feedMany_cons, feedMany_buf_index mask rest 1 0]
    · intro q hq
      rw [hi.2.2 q hq]
      exact findInstance_put_other hq _ _

/-- The frames that the answers of `ASM.FEEDN` list are those that feeding the bytes emits (R131). -/
theorem emissionsOf_feedAnswers (p : Nat) (mask : AddrMask) (bytes : List Byte) : ∀ (i : Nat) (buf : List Byte),
    emissionsOf i ((feedAnswers mask buf bytes).map (fun e => (p, Answer.frame e))) =
      (feedMany mask i buf bytes).emissions := by
  induction bytes with
  | nil => intro i buf; rfl
  | cons b rest ih => intro i buf; simp only [feedAnswers, List.map_cons, emissionsOf, ih, feedMany_cons]

end Sys2Proof.Machine
end

