-- ==== Sys2Proof/Tests/Slice0.lean ====
section
/-! SUPPORT. The model's own tests: what WellFormed refuses, each constructor's decoding from an encoding written out from the
spec's layouts, one-step checks against 95_test_vectors.md, and a state and operands that meet the hypotheses of each
statement that has some. -/

namespace Sys2Proof.Tests

-- One theorem at a time: elaborated side by side, the kernel evaluations below would each hold a thread's stack.
set_option Elab.async false

open Sys2Proof.Machine

/-! ### WellFormed -/

/-- A `WIRE.WRITE_REQ` with the unlock register and key is the unlock row's (R172). -/
theorem test_wf_refuses_unlock_as_write : (Instr.wireWriteReq 0x50#8 0x0069#16 0xB588#16 0#16).wf = false := by decide

/-- A `WIRE.WRITE_REQ` with the save register and value is the save row's (R173). -/
theorem test_wf_refuses_save_as_write : (Instr.wireWriteReq 0x50#8 0#16 0#16 0#16).wf = false := by decide

/-- A payload of 256 bytes does not fit `byte_count` (R71). -/
theorem test_wf_refuses_long_payload : (Instr.wireReadResp 0x50#8 (List.replicate 256 0#8) 0#16).wf = false := by
  decide +kernel

theorem test_wf_accepts_longest_payload : (Instr.wireReadResp 0x50#8 (List.replicate 255 0#8) 0#16).wf = true := by
  decide +kernel

/-! ### Decoding: words written out from R77, R78, R71, R72 -/

/-- OP 0000, RSV 0000, A 0, X 6, Y 0 (E5). -/
theorem test_decode_chkCrc :
    decode (.command 0b0000_0000_00000000_0000000000000110_0000000000000000#48) = .ok (.chkCrc 6#16) := by decide
/-- OP 0001, A 0x50 (E5). -/
theorem test_decode_asmFeed :
    decode (.command 0b0001_0000_01010000_0000000000000000_0000000000000000#48) = .ok (.asmFeed 0x50#8) := by decide
/-- OP 0010, X 4 (E5). -/
theorem test_decode_prsWord :
    decode (.command 0b0010_0000_00000000_0000000000000100_0000000000000000#48) = .ok (.prsWord 4#16) := by decide
/-- OP 0011 (E5). -/
theorem test_decode_prsClass :
    decode (.command 0b0011_0000_00000000_0000000000000000_0000000000000000#48) = .ok .prsClass := by decide
/-- OP 0100, A 0x50, X 0x0034, Y 0x000C (E5). -/
theorem test_decode_encRead :
    decode (.command 0b0100_0000_01010000_0000000000110100_0000000000001100#48) =
      .ok (.encRead 0x50#8 0x0034#16 0x000C#16) := by decide
/-- OP 0101, A 0x50, X 0x0003, Y 0x0001 (E5). -/
theorem test_decode_encWrite :
    decode (.command 0b0101_0000_01010000_0000000000000011_0000000000000001#48) =
      .ok (.encWrite 0x50#8 0x0003#16 0x0001#16) := by decide
/-- OP 0110, A 0x50 (E5). -/
theorem test_decode_encUnlock :
    decode (.command 0b0110_0000_01010000_0000000000000000_0000000000000000#48) = .ok (.encUnlock 0x50#8) := by decide
/-- OP 0111, A 0x50 (E5). -/
theorem test_decode_encSave :
    decode (.command 0b0111_0000_01010000_0000000000000000_0000000000000000#48) = .ok (.encSave 0x50#8) := by decide
/-- `RR` of 95_test_vectors.md section 3. -/
theorem test_decode_wireReadReq :
    decode (.wire .request [0x50, 0x03, 0x00, 0x34, 0x00, 0x0C, 0x09, 0x80]) =
      .ok (.wireReadReq 0x50#8 0x0034#16 0x000C#16 0x0980#16) := by decide
/-- `WR` of section 3. -/
theorem test_decode_wireWriteReq :
    decode (.wire .request [0x50, 0x06, 0x00, 0x03, 0x00, 0x01, 0xB5, 0x8B]) =
      .ok (.wireWriteReq 0x50#8 0x0003#16 0x0001#16 0xB58B#16) := by decide
/-- `UN` of section 3. -/
theorem test_decode_wireUnlock :
    decode (.wire .request [0x50, 0x06, 0x00, 0x69, 0xB5, 0x88, 0x22, 0xA1]) = .ok (.wireUnlock 0x50#8 0x22A1#16) := by
  decide
/-- `SV` of section 3. -/
theorem test_decode_wireSave :
    decode (.wire .request [0x50, 0x06, 0x00, 0x00, 0x00, 0x00, 0x84, 0x4B]) = .ok (.wireSave 0x50#8 0x844B#16) := by
  decide
/-- `G` of section 3. -/
theorem test_decode_wireReadResp :
    decode (.wire .response [0x50, 0x03, 0x04, 0x12, 0x34, 0xFE, 0xDC, 0xBF, 0xB9]) =
      .ok (.wireReadResp 0x50#8 [0x12, 0x34, 0xFE, 0xDC] 0xBFB9#16) := by decide

/-- The refused command words of E5. -/
theorem test_decode_refuses_reserved :
    decode (.command 0x800000000000#48) = .error .reservedOp ∧
    decode (.command 0x010000000000#48) = .error .reservedField ∧
    decode (.command 0x300000010000#48) = .error .reservedField ∧
    decode (.command 0x105000000001#48) = .error .reservedField ∧
    decode (.command 0x605000690000#48) = .error .reservedField := by decide

/-- `OP` 8 with `RSV` not 0 is refused as a reserved operation (R203's order). -/
theorem test_decode_reserved_op_first : decode (.command 0x810000000000#48) = .error .reservedOp := by decide

/-- A request has 8 bytes (R72); a response `byte_count + 5` (R71); their function codes are R73's. -/
theorem test_decode_refuses_wire_shapes :
    decode (.wire .request [0x50, 0x03, 0x00]) = .error .wireLength ∧
    decode (.wire .request [0x50, 0x83, 0x00, 0x03, 0x00, 0x01, 0xB5, 0x8B]) = .error .wireFunction ∧
    decode (.wire .response [0x50, 0x03, 0x01, 0x12, 0x34]) = .error .wireLength ∧
    decode (.wire .response [0x50, 0x83, 0x00, 0x12, 0x34]) = .error .wireFunction := by decide

/-- The table numbers byte 0 of a wire row as its highest bits (R82). -/
theorem test_table_words :
    decodeTableWord 48 0x40500034000C = some (.encRead 0x50#8 0x0034#16 0x000C#16) ∧
    decodeTableWord 64 0x50060069B58822A1 = some (.wireUnlock 0x50#8 0x22A1#16) ∧
    decodeTableWord 24 0x000300 = some (.wireReadResp 0#8 [] 0#16) := by decide

/-! ### One-step checks against 95_test_vectors.md -/

/-- One instance at port 0, just after `RESET` with {0x50}, holding `buf`; `data` on the data channel. -/
def st (buf data : List Byte) : State :=
  { State.resetWith (1#256 <<< 0x50) with
    instances := [(0, { buf := buf, addrMask := 1#256 <<< 0x50 })], data := data }

/-- The answer and the buffer at port 0 after one instruction. -/
def after (i : Instr) (s : State) : Option (Answer × Option (List Byte)) :=
  match exec i s with
  | .next t => some (t.answer, (t.instanceAt 0).map fun inst => inst.buf)
  | .fault _ => none
  | .refused _ => none

/-- `F24` of section 3. -/
def f24 : List Byte :=
  [0x50, 0x03, 0x18, 0x40, 0x00, 0xC0, 0x00, 0x00, 0x00, 0x7F, 0xFF, 0x80, 0x00, 0xFF, 0xFF, 0x00, 0x01, 0x00, 0x64,
    0xFF, 0x9C, 0x40, 0x00, 0x20, 0x00, 0x00, 0x00, 0x76, 0xF3]

/-- `Z` of section 3: the shortest frame. -/
def frameZ : List Byte := [0x50, 0x03, 0x00, 0x71, 0x21]

/-- V1: the worked example. -/
theorem test_crc_worked_example :
    after (.chkCrc 6#16) (st [] [0x50, 0x03, 0x00, 0x34, 0x00, 0x0C]) = some (.checksum 0x0980#16, some []) := by
  decide +kernel
/-- V2: the empty sequence. -/
theorem test_crc_empty : after (.chkCrc 0#16) (st [] []) = some (.checksum 0xFFFF#16, some []) := by decide +kernel
/-- R107: fewer data bytes than X. -/
theorem test_crc_short_data : after (.chkCrc 2#16) (st [] [0x01]) = some (.refused .crcLength, some []) := by
  decide +kernel

/-- A3, last row: the closing byte emits and empties the buffer. -/
theorem test_feed_emits :
    after (.asmFeed 0x21#8) (st [0x50, 0x03, 0x00, 0x71] []) = some (.frame (some frameZ), some []) := by decide +kernel
/-- A9, `V2`: the mismatch exposes `Z` with one byte behind it, which is kept. -/
theorem test_feed_overrun :
    after (.asmFeed 0xAA#8) (st [0x50, 0x03, 0x04, 0x50, 0x03, 0x00, 0x71, 0x21] []) =
      some (.frame (some frameZ), some [0xAA]) := by decide +kernel
/-- A11: the function code is tested at the third byte. -/
theorem test_feed_wrong_function :
    after (.asmFeed 0x50#8) (st [0x50, 0x06] []) = some (.frame none, some [0x50]) := by decide +kernel

/-- W5: the most negative field. -/
theorem test_prsWord_most_negative : after (.prsWord 4#16) (st [] f24) = some (.word (-32768), some []) := by
  decide +kernel
/-- W9: one past the last field. -/
theorem test_prsWord_past_end : after (.prsWord 12#16) (st [] f24) = some (.refused .fieldIndex, some []) := by
  decide +kernel
/-- W15: length 5 is not 4 + 5. -/
theorem test_prsWord_malformed :
    after (.prsWord 0#16) (st [] [0x50, 0x03, 0x04, 0x12, 0x34]) = some (.refused .malformedFrame, some []) := by
  decide +kernel
/-- W10. -/
theorem test_prsClass_imu : after .prsClass (st [] f24) = some (.payloadClass .imu, some []) := by decide +kernel
/-- W12. -/
theorem test_prsClass_generic : after .prsClass (st [] frameZ) = some (.payloadClass .generic, some []) := by
  decide +kernel

/-- E1, first and fifth rows. -/
theorem test_encRead :
    after (.encRead 0x50#8 0x0034#16 0x000C#16) (st [] []) =
      some (.request [0x50, 0x03, 0x00, 0x34, 0x00, 0x0C, 0x09, 0x80], some []) ∧
    after (.encRead 0x50#8 0xFFFF#16 0xFFFF#16) (st [] []) =
      some (.request [0x50, 0x03, 0xFF, 0xFF, 0xFF, 0xFF, 0x49, 0xDF], some []) := by decide +kernel
/-- E4, second row. -/
theorem test_encWrite :
    after (.encWrite 0x50#8 0x0024#16 0xFFFF#16) (st [] []) =
      some (.request [0x50, 0x06, 0x00, 0x24, 0xFF, 0xFF, 0xC5, 0xF0], some []) := by decide +kernel
/-- E2, third row. -/
theorem test_encUnlock :
    after (.encUnlock 0xFF#8) (st [] []) =
      some (.request [0xFF, 0x06, 0x00, 0x69, 0xB5, 0x88, 0x3A, 0xFE], some []) := by decide +kernel
/-- E3, second row. -/
theorem test_encSave :
    after (.encSave 0x00#8) (st [] []) =
      some (.request [0x00, 0x06, 0x00, 0x00, 0x00, 0x00, 0x88, 0x1B], some []) := by decide +kernel

/-- A5: the worked read request emits nothing and leaves the buffer empty. -/
theorem test_wireReadReq_dropped :
    after (.wireReadReq 0x50#8 0x0034#16 0x000C#16 0x0980#16) (st [] []) = some (.emissions [], some []) := by
  decide +kernel
/-- A6: `R3` is emitted. -/
theorem test_wireReadReq_emitted :
    after (.wireReadReq 0x50#8 0x0300#16 0x0001#16 0x89CF#16) (st [] []) =
      some (.emissions [(7, [0x50, 0x03, 0x03, 0x00, 0x00, 0x01, 0x89, 0xCF])], some []) := by decide +kernel
/-- A15: the write-type requests emit nothing. -/
theorem test_wire_write_requests_dropped :
    after (.wireUnlock 0x50#8 0x22A1#16) (st [] []) = some (.emissions [], some []) ∧
    after (.wireWriteReq 0x50#8 0x0003#16 0x0001#16 0xB58B#16) (st [] []) = some (.emissions [], some []) ∧
    after (.wireSave 0x50#8 0x844B#16) (st [] []) = some (.emissions [], some []) := by decide +kernel
/-- A16: an odd payload is accepted. -/
theorem test_wireReadResp_emitted :
    after (.wireReadResp 0x50#8 [0x01, 0x02, 0x03] 0x58AE#16) (st [] []) =
      some (.emissions [(7, [0x50, 0x03, 0x03, 0x01, 0x02, 0x03, 0x58, 0xAE])], some []) := by decide +kernel

/-- Before any reset of its port, `ASM.FEED` is refused (R233). -/
theorem test_feed_before_reset :
    after (.asmFeed 0x50#8) { st [] [] with port := 1 } = some (.refused .notReset, some []) := by decide +kernel

/-- The state after one step. -/
def stepped (s : State) : Option State :=
  match step s with
  | .next t => some t
  | .fault _ => none
  | .refused _ => none

/-- P1 steps 6 and 7: after a refused request the next one is performed. -/
theorem test_refused_request_does_not_stop :
    ((serve [.issue 0 (.command 0x2000000C0000#48) frameZ, .issue 0 (.command 0x000000000000#48) []]
      State.reset).answers) = [(0, .refused .fieldIndex), (0, .checksum 0xFFFF#16)] := by decide +kernel

/-- A command word placed by `withFetchWord` is what the next step runs. -/
theorem test_withFetchWord :
    (stepped (State.reset.withFetchWord 48 0x705000000000)).map (fun t => t.answer) =
      some (.request [0x50, 0x06, 0x00, 0x00, 0x00, 0x00, 0x84, 0x4B]) := by decide +kernel

/-! ### Witnesses: a state and operands that meet the hypotheses of each statement that has some -/

/-- The state of a host that is about to issue `r`. -/
def about (r : Request) (buf : List Byte) : State := { st buf [] with host := [r] }

/-- ResetEmptiesTheBufferAndLoadsTheAddressSet: a reset of a port that holds a partial candidate, and of a new one. -/
theorem witness_reset :
    (about (.reset 0 0#256) [0x50, 0x03]).host = .reset 0 0#256 :: [] ∧
    (about (.reset 7 1#256) [0x50]).host = .reset 7 1#256 :: [] := by decide

/-- EveryStepKeepsBuffersWithinCapacity: a full buffer (259 bytes) and a step. -/
theorem witness_inv_step :
    let s := about (.issue 0 (.command 0x105000000000#48) []) ([0x50, 0x03, 0xFF] ++ List.replicate 256 0#8)
    s.Inv ∧ (stepped s).isSome = true := by decide +kernel

/-- StepRunsTheDecodedInstruction. -/
theorem witness_step_decodes :
    (about (.issue 0 (.command 0x105000000000#48) []) []).host = .issue 0 (.command 0x105000000000#48) [] :: [] ∧
    decode (.command 0x105000000000#48) = .ok (.asmFeed 0x50#8) := by decide

/-- StepWithoutRequestChangesNothing. -/
theorem witness_no_request : State.reset.host = [] := by decide

/-- ReservedCommandWordsAreRefusedByName: `OP` 8, the least reserved, and `RSV` 1. -/
theorem witness_reserved_words :
    (∀ row ∈ operationRows, matchesRow 0x800000000000#48 row = false) ∧
    (∀ row ∈ operationRows, matchesRow 0x010000000000#48 row = false) ∧
    (about (.issue 0 (.command 0x800000000000#48) []) []).host = .issue 0 (.command 0x800000000000#48) [] :: [] ∧
    (about (.issue 0 (.command 0x010000000000#48) []) []).host = .issue 0 (.command 0x010000000000#48) [] :: [] := by
  refine ⟨?_, ?_, rfl, rfl⟩ <;> simp [operationRows, matchesRow]

/-- CommandWordDecodesIffItMatchesARow has no hypothesis; both of its sides hold of some word. -/
theorem witness_matching_word : ∃ row ∈ operationRows, matchesRow 0x4050FFFF000C#48 row = true := by decide

/-- DecodingAnEncodingGivesTheInstructionBack: the longest payload is well-formed, and so is a write request. -/
theorem witness_wf :
    (Instr.wireReadResp 0x50#8 (List.replicate 255 0#8) 0#16).wf = true ∧
    (Instr.wireWriteReq 0x50#8 0x0069#16 0xB589#16 0#16).wf = true := by decide +kernel

/-- EveryDecodedCodeIsThatInstructionsEncoding. -/
theorem witness_decodes : decode (.wire .response [0x50, 0x03, 0x00, 0x71, 0x21]) =
    .ok (.wireReadResp 0x50#8 [] 0x7121#16) := by decide

/-- ChkCrcAnswersTheChecksumOfItsData: exactly as many bytes as `len`, at 258 and at 259. -/
theorem witness_crc_lengths :
    (258#16).toNat ≤ (st [] (List.replicate 258 0#8)).data.length ∧
    (259#16).toNat ≤ (st [] (List.replicate 259 0#8)).data.length := by decide +kernel

/-- ChkCrcBeyondItsDataIsRefused: one byte short. -/
theorem witness_crc_short : (st [] []).data.length < (1#16).toNat := by decide

/-- StampedMessageHasZeroResidue: a frame of two bytes. -/
theorem witness_two_bytes : 2 ≤ ([0xFF, 0xFF] : List Byte).length ∧ crcOk [0xFF, 0xFF] = true := by decide +kernel

/-- ChecksumDetectsEverySingleByteChange: the first byte and the last. -/
theorem witness_single_byte_change :
    2 ≤ frameZ.length ∧ crcOk frameZ = true ∧ 0 < frameZ.length ∧ byteAt frameZ 0 ≠ 0x51#8 ∧ 4 < frameZ.length ∧
      byteAt frameZ 4 ≠ 0x20#8 := by decide +kernel

/-- Statements about a feed at a port that was reset (FeedAppendsAndRunsTheSettleLoop, WireFramesCompleteAsFeedsOfTheirBytes,
FramesAreDisjointRunsOfTheStreamInOrder, SplittingAChunkChangesNothing). -/
theorem witness_current :
    (st [0x50, 0x03] []).instanceAt (st [0x50, 0x03] []).port =
      some { buf := [0x50, 0x03], addrMask := 1#256 <<< 0x50 } ∧
    encode (.wireUnlock 0x50#8 0#16) = .wire .request [0x50, 0x06, 0x00, 0x69, 0xB5, 0x88, 0x00, 0x00] := by decide

/-- FeedBeforeAnyResetIsRefused, WireFramesBeforeAnyResetAreRefused: a port that was never reset. -/
theorem witness_never_reset : ({ st [] [] with port := 1 } : State).instanceAt 1 = none := by decide

/-- FeedLeavesASettledBufferOrTheRemainder, its first clause: a feed that answers NONE. -/
theorem witness_feed_none :
    after (.asmFeed 0x03#8) (st [0x50] []) = some (.frame none, some [0x50, 0x03]) ∧
    (st [0x50] []).instanceAt 0 = some { buf := [0x50], addrMask := 1#256 <<< 0x50 } ∧ [0x50#8].length ≤ 259 := by
  decide +kernel

/-- FeedLeavesASettledBufferOrTheRemainder (second clause), EmittedFramesAreValid, EveryEmittedFrameIsParsed: a feed that
answers a frame with one field, which a state has on its data channel. -/
theorem witness_feed_frame :
    after (.asmFeed 0xAE#8) (st [0x50, 0x03, 0x03, 0x01, 0x02, 0x03, 0x58] []) =
      some (.frame (some [0x50, 0x03, 0x03, 0x01, 0x02, 0x03, 0x58, 0xAE]), some []) ∧
    (st [] [0x50, 0x03, 0x03, 0x01, 0x02, 0x03, 0x58, 0xAE]).data = [0x50, 0x03, 0x03, 0x01, 0x02, 0x03, 0x58, 0xAE] ∧
    (0#16).toNat < (byteAt [0x50, 0x03, 0x03, 0x01, 0x02, 0x03, 0x58, 0xAE] 2).toNat / 2 := by decide +kernel

/-- ValidResponseIsEmittedAtItsLastByte, MatchingCandidateIsEmittedAndRemoved: a valid response, before an empty buffer,
complete with the fed byte, and with bytes behind it. -/
theorem witness_valid_response :
    validResponse (1#256 <<< 0x50) frameZ ∧
    (st [] []).instanceAt 0 = some { buf := [], addrMask := 1#256 <<< 0x50 } ∧
    (st [0x50, 0x03, 0x00, 0x71] []).instanceAt 0 =
      some { buf := [0x50, 0x03, 0x00, 0x71], addrMask := 1#256 <<< 0x50 } ∧
    [0x50, 0x03, 0x00, 0x71] ++ [0x21#8] = frameZ ++ [] ∧
    (st (frameZ ++ [0xAA]) []).instanceAt 0 = some { buf := frameZ ++ [0xAA], addrMask := 1#256 <<< 0x50 } ∧
    (frameZ ++ [0xAA]) ++ [0xBB#8] = frameZ ++ [0xAA, 0xBB] := by
  decide +kernel

/-- FirstByteOutsideTheAddressSetIsDropped: nothing held, and a remainder that starts with no address (P4 step 2). -/
theorem witness_wrong_address :
    (st [] []).instanceAt (st [] []).port = some { buf := [], addrMask := 1#256 <<< 0x50 } ∧
    (st [0xAA] []).instanceAt (st [0xAA] []).port = some { buf := 0xAA#8 :: [], addrMask := 1#256 <<< 0x50 } ∧
    inAddrs (1#256 <<< 0x50) 0xAA#8 = false := by decide

/-- FunctionCodeIsTestedOnceThreeBytesAreHeld: none and one byte held, and the third byte of A11. -/
theorem witness_function_code :
    inAddrs (1#256 <<< 0x50) (byteAt ([] ++ [0x50#8]) 0) = true ∧
    (st [0x50] []).instanceAt (st [0x50] []).port = some { buf := [0x50], addrMask := 1#256 <<< 0x50 } ∧
    ([0x50] : List Byte).length ≤ 1 ∧ inAddrs (1#256 <<< 0x50) (byteAt ([0x50] ++ [0x06#8]) 0) = true ∧
    (st [0x50, 0x06] []).instanceAt 0 = some { buf := 0x50#8 :: 0x06#8 :: [], addrMask := 1#256 <<< 0x50 } ∧
    inAddrs (1#256 <<< 0x50) 0x50#8 = true ∧ (0x06#8 : Byte) ≠ 0x03#8 := by decide

/-- IncompleteCandidateIsKept: the third byte, and the last but one of `Z`. -/
theorem witness_incomplete :
    (st [0x50, 0x03] []).instanceAt 0 = some { buf := [0x50, 0x03], addrMask := 1#256 <<< 0x50 } ∧
    inAddrs (1#256 <<< 0x50) (byteAt ([0x50, 0x03] ++ [0x00#8]) 0) = true ∧ 2 ≤ ([0x50, 0x03] : List Byte).length ∧
    byteAt [0x50, 0x03] 1 = 0x03#8 ∧ 2 + 1 < (byteAt ([0x50, 0x03] ++ [0x00#8]) 2).toNat + 5 ∧
    byteAt [0x50, 0x03, 0x00] 1 = 0x03#8 ∧ 3 + 1 < (byteAt ([0x50, 0x03, 0x00] ++ [0x71#8]) 2).toNat + 5 := by
  decide +kernel

/-- LeadingGarbageChangesNothing: the garbage of A2. -/
theorem witness_garbage :
    ∀ b ∈ ([0x11, 0x22, 0x33, 0x44, 0x55] : List Byte), inAddrs (1#256 <<< 0x50) b = false := by decide

/-- ChecksumMismatchDropsOnlyTheFirstByte: A5 at index 4. -/
theorem witness_mismatch :
    (st [0x50, 0x03, 0x00, 0x34] []).instanceAt 0 =
      some { buf := 0x50#8 :: [0x03, 0x00, 0x34], addrMask := 1#256 <<< 0x50 } ∧
    inAddrs (1#256 <<< 0x50) 0x50#8 = true ∧ byteAt (0x50#8 :: [0x03, 0x00, 0x34]) 1 = 0x03#8 ∧
    expectedLength (0x50#8 :: [0x03, 0x00, 0x34]) ≤ ([0x03, 0x00, 0x34] : List Byte).length + 2 ∧
    3 ≤ (0x50#8 :: [0x03, 0x00, 0x34]).length ∧
    crcOk ((0x50#8 :: [0x03, 0x00, 0x34] ++ [0x00]).take (expectedLength (0x50#8 :: [0x03, 0x00, 0x34]))) = false := by
  decide +kernel

/-- WrongFunctionCodeIsDroppedAtTheThirdByte: A11. -/
theorem witness_wrong_function :
    (st [0x50, 0x06] []).instanceAt 0 = some { buf := [0x50, 0x06], addrMask := 1#256 <<< 0x50 } ∧
    inAddrs (1#256 <<< 0x50) 0x50#8 = true ∧ (0x06#8 : Byte) ≠ 0x03#8 := by decide

/-- EmptyAddressSetDropsEveryByte. -/
theorem witness_empty_set :
    (State.resetWith 0#256).instanceAt (State.resetWith 0#256).port = some { buf := [], addrMask := 0#256 } := by decide

/-- ArrivingBytesAreFedOneByOne: bytes of no frame's shape. -/
theorem witness_arriving_bytes :
    (about (.issue 0 (.wire .response [0x00, 0x50]) []) []).host = .issue 0 (.wire .response [0x00, 0x50]) [] :: [] ∧
    (about (.issue 0 (.wire .response [0x00, 0x50]) []) []).instanceAt 0 =
      some { buf := [], addrMask := 1#256 <<< 0x50 } := by decide

/-- ArrivingResponseIsEmittedWhole, ArrivingControlRequestsEmitNothing and the two statements about read requests: an empty
buffer, a configured address, and register pages 3 and 4. -/
theorem witness_arrivals :
    (st [] []).instanceAt (st [] []).port = some { buf := [], addrMask := 1#256 <<< 0x50 } ∧
    inAddrs (1#256 <<< 0x50) 0x50#8 = true ∧ ([] : List Byte).length ≤ 255 ∧ hi8 0x0300#16 = 0x03#8 ∧
    3 < (hi8 0x0400#16).toNat := by decide

/-- PrsWordAnswersTheSignedField, HandedFieldsAreTheWordsInPayloadOrder and the refusals of PRS.WORD: the last field, the
index behind it, a malformed frame. -/
theorem witness_prsWord :
    wellFormedFrame (st [] f24).data = true ∧ (11#16).toNat < (byteAt (st [] f24).data 2).toNat / 2 ∧
    (byteAt (st [] f24).data 2).toNat / 2 ≤ (12#16).toNat ∧ wellFormedFrame (st [] [0x50, 0x03]).data = false := by
  decide +kernel

/-- PrsClassAnswersByPayloadLengthAlone: the shortest well-formed operand, one byte less, and one byte more. -/
theorem witness_prsClass :
    (5 ≤ (st [] frameZ).data.length ∧ (st [] frameZ).data.length = (byteAt (st [] frameZ).data 2).toNat + 5) ∧
    ¬ 5 ≤ (st [] (frameZ.take 4)).data.length ∧
    (st [] (frameZ ++ [0x00])).data.length ≠ (byteAt (st [] (frameZ ++ [0x00])).data 2).toNat + 5 := by decide +kernel

/-- ImuFieldsStandInOrderAtTheirOffsets: the last field of `F24`. -/
theorem witness_imu :
    wellFormedFrame (st [] f24).data = true ∧ byteAt (st [] f24).data 2 = 24#8 ∧ (11#16).toNat < 12 := by decide +kernel

/-- OnlyFeedingAndResetChangeAnInstance: a step that changes an instance. -/
theorem witness_changed_instance :
    (stepped (about (.issue 0 (.command 0x105000000000#48) []) [])).map (fun t => t.instanceAt 0) =
      some (some { buf := [0x50], addrMask := 1#256 <<< 0x50 }) ∧
    (about (.issue 0 (.command 0x105000000000#48) []) []).instanceAt 0 =
      some { buf := [], addrMask := 1#256 <<< 0x50 } := by decide +kernel

/-- OnlyResetWritesTheAddressSet: a step whose request is a reset of another port. -/
theorem witness_reset_of_another_port :
    (stepped (about (.reset 1 0#256) [0x50])).isSome = true ∧
    (about (.reset 1 0#256) [0x50]).instanceAt 0 = some { buf := [0x50], addrMask := 1#256 <<< 0x50 } ∧
    (about (.reset 1 0#256) [0x50]).host = [.reset 1 0#256] := by decide +kernel

/-- StatelessOperationsDependOnOperandsAlone: two different states with the same data. -/
theorem witness_same_data : (st [0x50] f24).data = (State.resetWith 0#256 : State).data ++ f24 ∧
    st [0x50] f24 ≠ st [] f24 ∧ (st [0x50] f24).data = (st [] f24).data := by decide +kernel

end Sys2Proof.Tests
end

/-! ### The table-driven checksum is the direct form (R100, R101, R103) -/

section
namespace Sys2Proof

theorem be16_eq_append (h l : Byte) : be16 h l = h ++ l := by
  apply BitVec.eq_of_toNat_eq
  rw [be16_toNat, BitVec.toNat_append, ← Nat.shiftLeft_add_eq_or_of_lt l.isLt, Nat.shiftLeft_eq]

theorem be16_xor_be16 (h l h' l' : Byte) : be16 h l ^^^ be16 h' l' = be16 (h ^^^ h') (l ^^^ l') := by
  simp only [be16_eq_append]
  exact BitVec.xor_append

theorem setWidth_eq_be16 (b : Byte) : b.setWidth 16 = be16 0#8 b := by
  simp [be16]

theorem hi8_eq_ofNat (v : Half) : hi8 v = BitVec.ofNat 8 (v.toNat / 256) := by
  rw [← hi8_toNat, BitVec.ofNat_toNat, BitVec.setWidth_eq]

theorem lo8_eq_ofNat (v : Half) : lo8 v = BitVec.ofNat 8 (v.toNat % 256) := by
  rw [← lo8_toNat, BitVec.ofNat_toNat, BitVec.setWidth_eq]

end Sys2Proof

namespace Sys2Proof.Machine

/-- One shift of the bitwise checksum is linear over exclusive or. -/
theorem crcShift_xor (x y : Half) : crcShift (x ^^^ y) = crcShift x ^^^ crcShift y := by
  simp only [crcShift, BitVec.getLsbD_xor, BitVec.ushiftRight_xor_distrib]
  cases x.getLsbD 0 <;> cases y.getLsbD 0
  case false.false => rfl
  case false.true => simp [BitVec.xor_assoc]
  case true.false =>
    show (x >>> 1) ^^^ (y >>> 1) ^^^ Config.crcPoly = ((x >>> 1) ^^^ Config.crcPoly) ^^^ (y >>> 1)
    ac_rfl
  case true.true =>
    calc (x >>> 1) ^^^ (y >>> 1)
        = (x >>> 1) ^^^ (y >>> 1) ^^^ (Config.crcPoly ^^^ Config.crcPoly) := by simp
      _ = ((x >>> 1) ^^^ Config.crcPoly) ^^^ ((y >>> 1) ^^^ Config.crcPoly) := by ac_rfl

theorem crcShift8_xor (x y : Half) : crcShift8 (x ^^^ y) = crcShift8 x ^^^ crcShift8 y := by
  simp only [crcShift8, crcShift_xor]

/-- Eight shifts bring the high byte down unchanged: it never meets the polynomial. -/
theorem crcShift8_highByte : ∀ h : Byte, crcShift8 (be16 h 0#8) = be16 0#8 h := by decide +kernel

/-- `ROM_LO` is the list of the high bytes that the generating rule gives (R100). -/
theorem romLo_eq_map :
    romLo = (List.range 256).map fun i => hi8 (tableRegister (BitVec.ofNat 8 i)) := by decide +kernel

/-- `ROM_HI` is the list of the low bytes that the generating rule gives (R100). -/
theorem romHi_eq_map :
    romHi = (List.range 256).map fun i => lo8 (tableRegister (BitVec.ofNat 8 i)) := by decide +kernel

theorem memRead_romLo (i : Byte) : memRead [] .romLo i.toNat = some (hi8 (tableRegister i)) := by
  simp [memRead, spaceBytes, romLo_eq_map, i.isLt]

theorem memRead_romHi (i : Byte) : memRead [] .romHi i.toNat = some (lo8 (tableRegister i)) := by
  simp [memRead, spaceBytes, romHi_eq_map, i.isLt]

theorem romByte_romLo (i : Byte) : romByte .romLo i = hi8 (tableRegister i) := by
  simp [romByte, memRead_romLo]

theorem romByte_romHi (i : Byte) : romByte .romHi i = lo8 (tableRegister i) := by
  simp [romByte, memRead_romHi]

/-- One byte of the direct form is one `CRC_STEP`, the register's bytes being the accumulators in the other order. -/
theorem crcShift8_eq_crcStep (acc : Acc) (b : Byte) :
    crcShift8 (be16 acc.lo acc.hi ^^^ b.setWidth 16) = be16 (crcStep acc b).lo (crcStep acc b).hi := by
  have bytewise : be16 acc.lo acc.hi ^^^ b.setWidth 16 = be16 acc.lo 0#8 ^^^ be16 0#8 (acc.hi ^^^ b) := by
    simp [setWidth_eq_be16, be16_xor_be16]
  calc crcShift8 (be16 acc.lo acc.hi ^^^ b.setWidth 16)
      = crcShift8 (be16 acc.lo 0#8) ^^^ tableRegister (acc.hi ^^^ b) := by
        rw [bytewise, crcShift8_xor, tableRegister, setWidth_eq_be16]
    _ = be16 0#8 acc.lo ^^^
          be16 (hi8 (tableRegister (acc.hi ^^^ b))) (lo8 (tableRegister (acc.hi ^^^ b))) := by
        rw [crcShift8_highByte, be16_hi8_lo8]
    _ = be16 (crcStep acc b).lo (crcStep acc b).hi := by
        rw [be16_xor_be16, BitVec.zero_xor, crcStep_lo, crcStep_hi, romByte_romLo, romByte_romHi]

/-- The direct form's register from any start, against the accumulators from the same start. -/
theorem foldl_crcShift8_eq_crcAcc (s : List Byte) : ∀ acc : Acc,
    s.foldl (fun r b => crcShift8 (r ^^^ b.setWidth 16)) (be16 acc.lo acc.hi) =
      be16 (crcAcc acc s).lo (crcAcc acc s).hi := by
  induction s with
  | nil => intro acc; rfl
  | cons b rest ih => intro acc; rw [List.foldl_cons, crcShift8_eq_crcStep, ih, crcAcc_cons]

theorem directRegister_eq_crcAcc (s : List Byte) :
    directRegister s = be16 (crcAcc accInit s).lo (crcAcc accInit s).hi :=
  foldl_crcShift8_eq_crcAcc s accInit

/-- The table-driven checksum is the byte-swapped register of the direct form (R103). -/
theorem crc_eq_directCrc (s : List Byte) : crc s = directCrc s := by
  simp [crc, directCrc, swapBytes, directRegister_eq_crcAcc]

/-- The encoder's request is the one whose fields are written as numbers and whose checksum is the direct form's. -/
theorem buildRequest_eq_stampedRequest (a f : Byte) (x y : Half) :
    buildRequest a f x y = stampedRequest a f x y := by
  simp only [buildRequest, crcBytes, stampedRequest, crc_eq_directCrc, hi8_eq_ofNat, lo8_eq_ofNat]

end Sys2Proof.Machine
end

/-! ### The answers of the operations that keep no state (R58, R176) -/

section
namespace Sys2Proof.Machine

/-- What `CHK.CRC` answers, of its length and its data channel (R102, R107, R204). -/
def chkCrcAnswer (len : Half) (data : List Byte) : Answer :=
  if data.length < len.toNat then .refused .crcLength
  else if crcLengthAllowed len.toNat then .checksum (crc (data.take len.toNat))
  else .refused .crcLength

theorem exec_chkCrc (len : Half) (s : State) :
    exec (.chkCrc len) s = .next (s.reply (chkCrcAnswer len s.data)) := by
  simp only [exec, execChkCrc, chkCrcAnswer]
  split_ifs <;> rfl

/-- What `PRS.WORD` answers, of its index and its frame operand (R152, R153). -/
def prsWordAnswer (k : Half) (data : List Byte) : Answer :=
  if !wellFormedFrame data then .refused .malformedFrame
  else if k.toNat < (payloadOf data).length / 2 then .word (payloadField data k.toNat)
  else .refused .fieldIndex

theorem exec_prsWord (k : Half) (s : State) :
    exec (.prsWord k) s = .next (s.reply (prsWordAnswer k s.data)) := by
  simp only [exec, execPrsWord, prsWordAnswer]
  split_ifs <;> rfl

/-- What `PRS.CLASS` answers, of its frame operand (R152, R155). -/
def prsClassAnswer (data : List Byte) : Answer :=
  if wellFormedFrame data then .payloadClass (classOf data) else .refused .malformedFrame

theorem exec_prsClass (s : State) : exec .prsClass s = .next (s.reply (prsClassAnswer s.data)) := by
  simp only [exec, execPrsClass, prsClassAnswer]
  split_ifs <;> rfl

theorem exec_encRead (a : Byte) (reg count : Half) (s : State) :
    exec (.encRead a reg count) s = .next (s.reply (.request (stampedRequest a 0x03#8 reg count))) := by
  rw [← buildRequest_eq_stampedRequest]; rfl

theorem exec_encWrite (a : Byte) (reg value : Half) (s : State) :
    exec (.encWrite a reg value) s = .next (s.reply (.request (stampedRequest a 0x06#8 reg value))) := by
  rw [← buildRequest_eq_stampedRequest]; rfl

/-- `ENC.UNLOCK` is `ENC.WRITE` of `KEY_UNLOCK` to `REG_UNLOCK` (R10, R172). -/
theorem exec_encUnlock_eq_encWrite (a : Byte) (s : State) :
    exec (.encUnlock a) s = exec (.encWrite a 0x0069#16 0xB588#16) s := rfl

/-- `ENC.SAVE` is `ENC.WRITE` of `VAL_SAVE` to `REG_SAVE` (R10, R173). -/
theorem exec_encSave_eq_encWrite (a : Byte) (s : State) :
    exec (.encSave a) s = exec (.encWrite a 0x0000#16 0x0000#16) s := rfl

theorem exec_encUnlock (a : Byte) (s : State) :
    exec (.encUnlock a) s = .next (s.reply (.request (stampedRequest a 0x06#8 0x0069#16 0xB588#16))) :=
  (exec_encUnlock_eq_encWrite a s).trans (exec_encWrite a _ _ s)

theorem exec_encSave (a : Byte) (s : State) :
    exec (.encSave a) s = .next (s.reply (.request (stampedRequest a 0x06#8 0x0000#16 0x0000#16))) :=
  (exec_encSave_eq_encWrite a s).trans (exec_encWrite a _ _ s)

/-- Settles O49: the unlock request is a write request with the constants of R10. -/
theorem encUnlockBuildsTheUnlockRequest : Obligations.EncUnlockBuildsTheUnlockRequest :=
  fun s a => ⟨exec_encUnlock a s, exec_encUnlock_eq_encWrite a s⟩

/-- Settles O50: the save request is a write request with the constants of R10. -/
theorem encSaveBuildsTheSaveRequest : Obligations.EncSaveBuildsTheSaveRequest :=
  fun s a => ⟨exec_encSave a s, exec_encSave_eq_encWrite a s⟩

end Sys2Proof.Machine
end

/-! ### Nothing reads the last answer or the requests still to come (R17, R42, R61) -/

section
namespace Sys2Proof.Machine

/-- The state with another last answer and other requests still to come: what the engine must not read. -/
def State.withScript (s : State) (answer : Answer) (host : List Request) : State :=
  { s with answer := answer, host := host }

/-- The port's assembler is found without the two. -/
@[simp] theorem State.withScript_current (s : State) (answer : Answer) (host : List Request) :
    (s.withScript answer host).current = s.current := rfl

/-- From `s`, `run` ends in one state whatever the last answer and the requests still to come are; it only keeps the
latter. -/
def ReadsNoScript (run : State → Host.Outcome State Fault Refusal) (s : State) : Prop :=
  ∃ t : State, ∀ answer host, run (s.withScript answer host) = .next { t with host := host }

/-- A request that only answers, of its data channel, reads neither. -/
theorem readsNoScript_of_reply {run : State → Host.Outcome State Fault Refusal} (result : List Byte → Answer)
    (replies : ∀ s, run s = .next (s.reply (result s.data))) (s : State) : ReadsNoScript run s :=
  ⟨s.reply (result s.data), fun answer host => replies (s.withScript answer host)⟩

/-- Feeding one byte reads only the port, its assembler and the byte (R121). -/
theorem exec_asmFeed_readsNoScript (b : Byte) (s : State) : ReadsNoScript (exec (.asmFeed b)) s := by
  cases current : s.current with
  | none =>
    refine ⟨s.refuse .notReset, fun answer host => ?_⟩
    simp only [exec, execAsmFeed, State.withScript_current, current]
    rfl
  | some inst =>
    refine ⟨(s.setInstance s.port { inst with buf := (feed inst.addrMask inst.buf b).buf }).reply
      (.frame (feed inst.addrMask inst.buf b).emitted), fun answer host => ?_⟩
    simp only [exec, execAsmFeed, State.withScript_current, current]
    rfl

/-- Bytes arriving on the stream read only the port, its assembler and the bytes (R131). -/
theorem feedChunk_withScript (bytes : List Byte) (s : State) (answer : Answer) (host : List Request) :
    feedChunk bytes (s.withScript answer host) = { feedChunk bytes s with host := host } := by
  cases current : s.current with
  | none => cases bytes <;> simp only [feedChunk, State.withScript_current, current] <;> rfl
  | some inst =>
    rw [feedChunk_of_current current, feedChunk_of_current (s := s.withScript answer host) current]
    rfl

theorem readsNoScript_of_feedChunk {run : State → Host.Outcome State Fault Refusal} (bytes : List Byte)
    (feeds : ∀ s, run s = .next (feedChunk bytes s)) (s : State) : ReadsNoScript run s :=
  ⟨feedChunk bytes s, fun answer host => by rw [feeds, feedChunk_withScript]⟩

/-- No instruction reads the last answer or the requests still to come. -/
theorem exec_readsNoScript (i : Instr) (s : State) : ReadsNoScript (exec i) s := by
  cases i with
  | chkCrc len => exact readsNoScript_of_reply (chkCrcAnswer len) (exec_chkCrc len) s
  | prsWord k => exact readsNoScript_of_reply (prsWordAnswer k) (exec_prsWord k) s
  | prsClass => exact readsNoScript_of_reply prsClassAnswer exec_prsClass s
  | encRead a reg count => exact readsNoScript_of_reply (fun _ => _) (exec_encRead a reg count) s
  | encWrite a reg value => exact readsNoScript_of_reply (fun _ => _) (exec_encWrite a reg value) s
  | encUnlock a => exact readsNoScript_of_reply (fun _ => _) (exec_encUnlock a) s
  | encSave a => exact readsNoScript_of_reply (fun _ => _) (exec_encSave a) s
  | asmFeed b => exact exec_asmFeed_readsNoScript b s
  | wireReadReq => exact readsNoScript_of_feedChunk _ (fun _ => rfl) s
  | wireWriteReq => exact readsNoScript_of_feedChunk _ (fun _ => rfl) s
  | wireUnlock => exact readsNoScript_of_feedChunk _ (fun _ => rfl) s
  | wireSave => exact readsNoScript_of_feedChunk _ (fun _ => rfl) s
  | wireReadResp => exact readsNoScript_of_feedChunk _ (fun _ => rfl) s

/-- Settles O57: both runs are cases of `exec_readsNoScript`, the first with the state's own answer and requests. -/
theorem nothingReadsTheAnswerOrTheHostsScript : Obligations.NothingReadsTheAnswerOrTheHostsScript := by
  intro s i answer host
  obtain ⟨t, ends⟩ := exec_readsNoScript i s
  exact ⟨{ t with host := s.host }, ends s.answer s.host, ends answer host, rfl⟩

end Sys2Proof.Machine
end

/-! ### Everything one step can do to the instances (R33, R36, R41, R130) -/

section
namespace Sys2Proof.Machine

/-- The assembler after these bytes were fed to it (R131): only `BUF` is written. -/
def Instance.fed (inst : Instance) (bytes : List Byte) : Instance :=
  { inst with buf := (feedMany inst.addrMask 0 inst.buf bytes).buf }

@[simp] theorem Instance.fed_addrMask (inst : Instance) (bytes : List Byte) :
    (inst.fed bytes).addrMask = inst.addrMask := rfl

/-- One byte fed is the list of that byte fed (R131). -/
theorem Instance.fed_singleton (inst : Instance) (b : Byte) :
    inst.fed [b] = { inst with buf := (feed inst.addrMask inst.buf b).buf } := rfl

theorem length_nil_lt_bufCap : ([] : List Byte).length < Config.bufCap := by decide

theorem Instance.length_fed {inst : Instance} (bound : inst.buf.length < Config.bufCap) (bytes : List Byte) :
    (inst.fed bytes).buf.length < Config.bufCap := length_feedMany inst.addrMask bytes 0 bound

theorem State.instanceAt_of_instances_eq {s t : State} (kept : t.instances = s.instances) (q : Nat) :
    t.instanceAt q = s.instanceAt q := congrArg (findInstance q) kept

theorem State.instanceAt_of_put_same {s t : State} {p : Nat} {inst : Instance}
    (put : t.instances = putInstance p inst s.instances) : t.instanceAt p = some inst := by
  rw [State.instanceAt, put, findInstance_put_same]

theorem State.instanceAt_of_put_other {s t : State} {p q : Nat} {inst : Instance}
    (put : t.instances = putInstance p inst s.instances) (other : q ≠ p) : t.instanceAt q = s.instanceAt q := by
  rw [State.instanceAt, put, findInstance_put_other other, State.instanceAt]

/-- The encoding is an `ASM.FEED` or bytes arriving on the stream (R33; log entries 4 and 12). -/
def FeedsStream (code : Code) : Prop :=
  (∃ b, decode code = .ok (.asmFeed b)) ∨ ∃ f bytes, code = .wire f bytes

/-- From `s` to `t` the instances are kept, but that the one at `p` may have been fed. -/
def KeepsOrFeeds (p : Nat) (s t : State) : Prop :=
  t.instances = s.instances ∨
    ∃ bytes inst, s.instanceAt p = some inst ∧ t.instances = putInstance p (inst.fed bytes) s.instances

theorem feedChunk_keepsOrFeeds (bytes : List Byte) (s : State) : KeepsOrFeeds s.port s (feedChunk bytes s) := by
  cases current : s.current with
  | none =>
    obtain ⟨a, answers⟩ := feedChunk_of_none current bytes
    exact .inl (by rw [answers, State.reply_instances])
  | some inst => exact .inr ⟨bytes, inst, current, by rw [feedChunk_of_current current]; rfl⟩

/-- A command word stands for an operation, whose encoding is a command word again: never for a wire frame (R78). -/
theorem encode_of_decode_command {w : CmdWord} {i : Instr} (decoded : decode (.command w) = .ok i) :
    ∃ w', encode i = .command w' := by
  have required {zero : Bool} {j : Instr} (ok : requireZero zero j = .ok i) : j = i := by
    cases zero <;> simp_all [requireZero]
  simp only [decode, decodeCommand] at decoded
  split at decoded
  · simp at decoded
  · rename_i op _
    split at decoded
    · cases op
      case encRead | encWrite => cases decoded; exact ⟨_, rfl⟩
      all_goals
        rw [← required decoded]
        exact ⟨_, rfl⟩
    · simp at decoded

/-- A code that stands for a wire frame is bytes of the wire (R82). -/
theorem feeds_of_encode_wire {code : Code} {i : Instr} {f : WireFormat} {bytes : List Byte}
    (decoded : decode code = .ok i) (wire : encode i = .wire f bytes) : FeedsStream code := by
  cases code with
  | command w =>
    obtain ⟨w', command⟩ := encode_of_decode_command decoded
    rw [command] at wire
    cases wire
  | wire g given => exact .inr ⟨g, given, rfl⟩

/-- What a step from `s` to `t` can have done to the instances. -/
inductive InstancesStep (s t : State) : Prop
  /-- It keeps them all. -/
  | kept (same : t.instances = s.instances)
  /-- It resets one (R230). -/
  | reset (p : Nat) (addrs : AddrMask) (rest : List Request) (host : s.host = .reset p addrs :: rest)
      (put : t.instances = putInstance p { buf := [], addrMask := addrs } s.instances)
  /-- It feeds bytes to one that was reset (R33). -/
  | fed (p : Nat) (code : Code) (data : List Byte) (rest : List Request) (bytes : List Byte) (inst : Instance)
      (host : s.host = .issue p code data :: rest) (feeds : FeedsStream code) (found : s.instanceAt p = some inst)
      (put : t.instances = putInstance p (inst.fed bytes) s.instances)

theorem InstancesStep.of_keepsOrFeeds {s t : State} {p : Nat} {code : Code} {data : List Byte} {rest : List Request}
    (host : s.host = .issue p code data :: rest) (feeds : FeedsStream code)
    (effect : KeepsOrFeeds p (acceptRequest p data rest s) t) : InstancesStep s t := by
  rcases effect with same | ⟨bytes, inst, found, put⟩
  · exact .kept same
  · exact .fed p code data rest bytes inst host feeds found put

/-- An instruction performed as the host's next request: `exec_cases`, for the instances. -/
theorem exec_instancesStep {s t : State} {p : Nat} {code : Code} {data : List Byte} {rest : List Request} {i : Instr}
    (host : s.host = .issue p code data :: rest) (decoded : decode code = .ok i)
    (ends : exec i (acceptRequest p data rest s) = .next t) : InstancesStep s t := by
  rcases exec_cases i (acceptRequest p data rest s) with
    ⟨a, replies⟩ | ⟨b, inst, rfl, current, feeds⟩ | ⟨f, bytes, wire, feeds⟩
  · cases replies.symm.trans ends
    exact .kept rfl
  · cases feeds.symm.trans ends
    exact .of_keepsOrFeeds host (.inl ⟨b, decoded⟩) (.inr ⟨[b], inst, current, rfl⟩)
  · cases feeds.symm.trans ends
    exact .of_keepsOrFeeds host (feeds_of_encode_wire decoded wire) (feedChunk_keepsOrFeeds bytes _)

theorem step_of_settled {s t : State} (fetched : fetch s = .settled t) : step s = .next t := by
  simp only [step, fetched]

theorem step_of_run {s t : State} {i : Instr} (fetched : fetch s = .run i t) : step s = exec i t := by
  simp only [step, fetched]

/-- Everything one step can do to the instances: `fetch_cases` and `exec_instancesStep`. -/
theorem step_instances {s t : State} (ends : step s = .next t) : InstancesStep s t := by
  rcases fetch_cases s with ⟨-, fetched⟩ | ⟨p, addrs, rest, host, fetched⟩ |
    ⟨p, code, data, rest, host, ⟨i, decoded, fetched⟩ | ⟨r, -, fetched⟩⟩
  · cases (step_of_settled fetched).symm.trans ends
    exact .kept rfl
  · cases (step_of_settled fetched).symm.trans ends
    exact .reset p addrs rest host rfl
  · exact exec_instancesStep host decoded ((step_of_run fetched).symm.trans ends)
  · cases (step_of_settled fetched).symm.trans ends
    rcases performUndecoded_cases code r (acceptRequest p data rest s) with
      ⟨-, -, reason, refuses⟩ | ⟨f, bytes, wire, feeds⟩
    · rw [refuses]
      exact .kept rfl
    · rw [feeds]
      exact .of_keepsOrFeeds host (.inr ⟨f, bytes, wire⟩) (feedChunk_keepsOrFeeds bytes _)

/-- Settles O3: what a reset stores is empty, and feeding keeps the bound (`length_feedMany`). -/
theorem everyStepKeepsBuffersWithinCapacity : Obligations.EveryStepKeepsBuffersWithinCapacity := by
  intro s t inv ends
  show Memory.wf t.instances
  cases step_instances ends with
  | kept same => rw [same]; exact inv
  | reset p addrs rest host put => rw [put]; exact putInstance_wf inv length_nil_lt_bufCap
  | fed p code data rest bytes inst host feeds found put =>
    have bound : inst.buf.length < Config.bufCap := inv.2 (p, inst) (findInstance_mem found)
    rw [put]
    exact putInstance_wf inv (Instance.length_fed bound bytes)

/-- Settles O53: where the request is at another port, a changed assembler contradicts the frame. -/
theorem onlyFeedingAndResetChangeAnInstance : Obligations.OnlyFeedingAndResetChangeAnInstance := by
  intro s t p ends changed
  cases step_instances ends with
  | kept same => exact absurd (State.instanceAt_of_instances_eq same p) changed
  | reset q addrs rest host put =>
    obtain rfl : p = q := not_not.1 fun other => changed (State.instanceAt_of_put_other put other)
    exact .inl ⟨addrs, rest, host⟩
  | fed q code data rest bytes inst host feeds found put =>
    obtain rfl : p = q := not_not.1 fun other => changed (State.instanceAt_of_put_other put other)
    exact .inr ⟨code, data, rest, host, feeds⟩

/-- Settles O54: a reset is of another port, and feeding writes only `BUF`. -/
theorem onlyResetWritesTheAddressSet : Obligations.OnlyResetWritesTheAddressSet := by
  intro s t p inst ends found noReset
  cases step_instances ends with
  | kept same => exact ⟨inst, (State.instanceAt_of_instances_eq same p).trans found, rfl⟩
  | reset q addrs rest host put =>
    have other : p ≠ q := by
      rintro rfl
      exact noReset addrs rest host
    exact ⟨inst, (State.instanceAt_of_put_other put other).trans found, rfl⟩
  | fed q code data rest bytes old host feeds foundOld put =>
    by_cases same : p = q
    · subst same
      obtain rfl : old = inst := Option.some.inj (foundOld.symm.trans found)
      exact ⟨old.fed bytes, State.instanceAt_of_put_same put, rfl⟩
    · exact ⟨inst, (State.instanceAt_of_put_other put same).trans found, rfl⟩

/-- The instances at the other ports are left as they are (R41). -/
theorem step_frame {s t : State} {r : Request} {rest : List Request} {q : Nat} (host : s.host = r :: rest)
    (ends : step s = .next t) (other : q ≠ r.port) : t.instanceAt q = s.instanceAt q := by
  cases step_instances ends with
  | kept same => exact State.instanceAt_of_instances_eq same q
  | reset p addrs rest' host' put =>
    cases host.symm.trans host'
    exact State.instanceAt_of_put_other put other
  | fed p code data rest' bytes inst host' feeds found put =>
    cases host.symm.trans host'
    exact State.instanceAt_of_put_other put other

end Sys2Proof.Machine
end

/-! ### What a request reads of the state is its data channel and the assembler at its port (R41, R62) -/

section
namespace Sys2Proof.Machine

/-- Two states in which a request at `p` is performed, with the same data channel and the same assembler at `p`. -/
structure SameAt (p : Nat) (s s' : State) : Prop where
  port : s.port = p
  port' : s'.port = p
  data : s.data = s'.data
  found : s.instanceAt p = s'.instanceAt p

theorem SameAt.current {p : Nat} {s s' : State} (same : SameAt p s s') : s.current = s'.current := by
  rw [State.current, State.current, same.port, same.port', same.found]

theorem SameAt.reply {p : Nat} {s s' : State} (same : SameAt p s s') (a a' : Answer) :
    SameAt p (s.reply a) (s'.reply a') := ⟨same.port, same.port', same.data, same.found⟩

theorem SameAt.setInstance {p : Nat} {s s' : State} (same : SameAt p s s') (inst : Instance) :
    SameAt p (s.setInstance s.port inst) (s'.setInstance s'.port inst) where
  port := same.port
  port' := same.port'
  data := same.data
  found := by rw [same.port, same.port', State.instanceAt_setInstance_same, State.instanceAt_setInstance_same]

/-- The request is answered alike, and leaves the port's assembler alike. -/
def EndAlike (p : Nat) (t t' : State) : Prop := t.answer = t'.answer ∧ SameAt p t t'

/-- From two such states, `run` ends alike. -/
def ReadsPortAlone (run : State → Host.Outcome State Fault Refusal) : Prop :=
  ∀ {p : Nat} {s s' : State}, SameAt p s s' → ∃ t t', run s = .next t ∧ run s' = .next t' ∧ EndAlike p t t'

theorem SameAt.endAlike_reply {p : Nat} {s s' : State} (same : SameAt p s s') (a : Answer) :
    EndAlike p (s.reply a) (s'.reply a) := ⟨rfl, same.reply a a⟩

/-- A request that only answers, of its data channel, reads no assembler. -/
theorem readsPortAlone_of_reply {run : State → Host.Outcome State Fault Refusal} (result : List Byte → Answer)
    (replies : ∀ s, run s = .next (s.reply (result s.data))) : ReadsPortAlone run := by
  intro p s s' same
  refine ⟨_, _, replies s, replies s', ?_⟩
  rw [same.data]
  exact same.endAlike_reply _

/-- Feeding one byte reads the port's assembler only (R121). -/
theorem execAsmFeed_readsPortAlone (b : Byte) : ReadsPortAlone (exec (.asmFeed b)) := by
  intro p s s' same
  simp only [exec, execAsmFeed, ← same.current]
  cases s.current with
  | none => exact ⟨_, _, rfl, rfl, same.endAlike_reply _⟩
  | some inst => exact ⟨_, _, rfl, rfl, (same.setInstance _).endAlike_reply _⟩

/-- Bytes arriving on the stream read the port's assembler only (R131). -/
theorem feedChunk_endAlike {p : Nat} {s s' : State} (same : SameAt p s s') (bytes : List Byte) :
    EndAlike p (feedChunk bytes s) (feedChunk bytes s') := by
  simp only [feedChunk, ← same.current]
  cases s.current with
  | none => cases bytes <;> exact same.endAlike_reply _
  | some inst => exact (same.setInstance _).endAlike_reply _

theorem readsPortAlone_of_feedChunk {run : State → Host.Outcome State Fault Refusal} (bytes : List Byte)
    (feeds : ∀ s, run s = .next (feedChunk bytes s)) : ReadsPortAlone run :=
  fun same => ⟨_, _, feeds _, feeds _, feedChunk_endAlike same bytes⟩

/-- Every instruction reads its data channel and the assembler at its port alone. -/
theorem exec_readsPortAlone (i : Instr) : ReadsPortAlone (exec i) := by
  cases i with
  | chkCrc len => exact readsPortAlone_of_reply (chkCrcAnswer len) (exec_chkCrc len)
  | prsWord k => exact readsPortAlone_of_reply (prsWordAnswer k) (exec_prsWord k)
  | prsClass => exact readsPortAlone_of_reply prsClassAnswer exec_prsClass
  | encRead a reg count => exact readsPortAlone_of_reply (fun _ => _) (exec_encRead a reg count)
  | encWrite a reg value => exact readsPortAlone_of_reply (fun _ => _) (exec_encWrite a reg value)
  | encUnlock a => exact readsPortAlone_of_reply (fun _ => _) (exec_encUnlock a)
  | encSave a => exact readsPortAlone_of_reply (fun _ => _) (exec_encSave a)
  | asmFeed b => exact execAsmFeed_readsPortAlone b
  | wireReadReq => exact readsPortAlone_of_feedChunk _ (fun _ => rfl)
  | wireWriteReq => exact readsPortAlone_of_feedChunk _ (fun _ => rfl)
  | wireUnlock => exact readsPortAlone_of_feedChunk _ (fun _ => rfl)
  | wireSave => exact readsPortAlone_of_feedChunk _ (fun _ => rfl)
  | wireReadResp => exact readsPortAlone_of_feedChunk _ (fun _ => rfl)

/-- An encoding that stands for no instruction reads the assembler at its port alone. -/
theorem performUndecoded_endAlike {p : Nat} {s s' : State} (same : SameAt p s s') (code : Code) (r : Reject) :
    EndAlike p (performUndecoded code r s) (performUndecoded code r s') := by
  cases code with
  | command w => cases r <;> exact same.endAlike_reply _
  | wire f bytes => exact feedChunk_endAlike same bytes

/-- A request taken from two states with the same assembler at its port. -/
theorem sameAt_acceptRequest {p : Nat} {s s' : State} (found : s.instanceAt p = s'.instanceAt p) (data : List Byte) :
    SameAt p (acceptRequest p data [] s) (acceptRequest p data [] s') := ⟨rfl, rfl, rfl, found⟩

/-- The state whose only request to come is `r`. -/
def State.given (s : State) (r : Request) : State := { s with host := [r] }

theorem fetch_given_decoded (s : State) (p : Nat) {code : Code} (data : List Byte) {i : Instr}
    (decoded : decode code = .ok i) :
    fetch (s.given (.issue p code data)) = .run i (acceptRequest p data [] (s.given (.issue p code data))) := by
  simp only [fetch, State.given, decoded]

theorem fetch_given_undecoded (s : State) (p : Nat) {code : Code} (data : List Byte) {e : Reject}
    (rejected : decode code = .error e) :
    fetch (s.given (.issue p code data)) =
      .settled (performUndecoded code e (acceptRequest p data [] (s.given (.issue p code data)))) := by
  simp only [fetch, State.given, rejected]

/-- Every request reads its data channel and the assembler at its port alone, and no request stops the machine. -/
theorem step_given_endAlike (r : Request) {s s' : State} (found : s.instanceAt r.port = s'.instanceAt r.port) :
    ∃ t t', step (s.given r) = .next t ∧ step (s'.given r) = .next t' ∧ EndAlike r.port t t' := by
  cases r with
  | reset p addrs =>
    exact ⟨_, _, rfl, rfl, ((sameAt_acceptRequest found []).setInstance _).endAlike_reply _⟩
  | issue p code data =>
    have same : SameAt p (acceptRequest p data [] (s.given (.issue p code data)))
        (acceptRequest p data [] (s'.given (.issue p code data))) := sameAt_acceptRequest found data
    cases decoded : decode code with
    | ok i =>
      rw [step_of_run (fetch_given_decoded s p data decoded), step_of_run (fetch_given_decoded s' p data decoded)]
      exact exec_readsPortAlone i same
    | error e =>
      exact ⟨_, _, step_of_settled (fetch_given_undecoded s p data decoded),
        step_of_settled (fetch_given_undecoded s' p data decoded), performUndecoded_endAlike same code e⟩

/-- Serving all requests and serving only those at `p`, from states with the same assembler at `p`. -/
theorem serve_filter_port (p : Nat) (requests : List Request) : ∀ s s' : State,
    s.instanceAt p = s'.instanceAt p →
      (serve requests s).answers.filter (fun x => x.1 == p) =
        (serve (requests.filter fun r => r.port == p) s').answers ∧
      (serve requests s).state.instanceAt p = (serve (requests.filter fun r => r.port == p) s').state.instanceAt p := by
  induction requests with
  | nil => exact fun s s' found => ⟨rfl, found⟩
  | cons r rest ih =>
    intro s s' found
    by_cases here : r.port = p
    · subst here
      obtain ⟨t, t', ends, ends', answer, same⟩ := step_given_endAlike r found
      obtain ⟨answers, final⟩ := ih t t' same.found
      rw [List.filter_cons_of_pos (a := r) (by simp), serve_cons ends, serve_cons ends']
      exact ⟨by simp [answer, answers], final⟩
    · obtain ⟨t, -, ends, -⟩ := step_given_endAlike r (s := s) (s' := s) rfl
      have frame : t.instanceAt p = s.instanceAt p := step_frame (s := s.given r) rfl ends (Ne.symm here)
      obtain ⟨answers, final⟩ := ih t s' (frame.trans found)
      rw [List.filter_cons_of_neg (by simpa using here), serve_cons ends]
      exact ⟨by simpa [here] using answers, final⟩

/-- Settles O55: both lists are served from one state. -/
theorem instancesDoNotInfluenceEachOther : Obligations.InstancesDoNotInfluenceEachOther :=
  fun requests s p => serve_filter_port p requests s s rfl

end Sys2Proof.Machine
end

/-! ### The state after reset (R42, R231) -/

section
namespace Sys2Proof.Machine

/-- Reset stores one empty assembler, at port 0 (log entry 6). -/
theorem State.resetWith_instances (addrs : AddrMask) :
    (State.resetWith addrs).instances = putInstance 0 { buf := [], addrMask := addrs } [] := rfl

theorem Memory.wf_nil : Memory.wf [] := ⟨.nil, by simp⟩

/-- Settles O2: what reset stores is what is found at port 0, and nothing is found elsewhere. -/
theorem stateAfterResetIsAnEmptyCanonicalEngine : Obligations.StateAfterResetIsAnEmptyCanonicalEngine := by
  refine ⟨fun addrs => ⟨?inv, ?here, ?elsewhere⟩, rfl⟩
  case inv => exact putInstance_wf Memory.wf_nil length_nil_lt_bufCap
  case here => exact findInstance_put_same 0 _ []
  case elsewhere => exact fun q other => findInstance_put_other other _ []

end Sys2Proof.Machine
end

/-! ### A decoded instruction is well-formed, and the step performs it (R61, R77) -/

section
namespace Sys2Proof

/-- What `requireZero` lets through is the instruction it was given. -/
theorem eq_of_requireZero {unusedAreZero : Bool} {i j : Instr} (passes : requireZero unusedAreZero i = .ok j) :
    i = j := by
  cases unusedAreZero with
  | true => exact Except.ok.inj passes
  | false => exact nomatch passes

/-- The operations of a command word have no check but their widths (R77, R78). -/
theorem wf_of_assemble {op : Op} {a : Byte} {x y : Half} {i : Instr} (assembled : assemble op a x y = .ok i) :
    i.wf = true := by
  cases op with
  | encRead | encWrite => cases assembled; rfl
  | chkCrc | asmFeed | prsWord | prsClass | encUnlock | encSave => cases eq_of_requireZero assembled; rfl

theorem wf_of_decodeCommand {w : CmdWord} {i : Instr} (decoded : decodeCommand w = .ok i) : i.wf = true := by
  unfold decodeCommand at decoded
  split at decoded
  case h_1 => exact nomatch decoded
  case h_2 op _ =>
    split at decoded
    case isTrue => exact wf_of_assemble decoded
    case isFalse => exact nomatch decoded

/-- The two control requests are rows of their own, so what is left is well-formed (R172, R173; log entry 11). -/
theorem wf_writeRequest (a : Byte) (reg value crc : Half) : (writeRequest a reg value crc).wf = true := by
  unfold writeRequest
  split_ifs with unlock save
  · rfl
  · rfl
  · simp [Instr.wf, isControlWrite, not_and_or.1 unlock, not_and_or.1 save]

theorem wf_of_decodeWireRequest {bytes : List Byte} {i : Instr} (decoded : decodeWireRequest bytes = .ok i) :
    i.wf = true := by
  unfold decodeWireRequest at decoded
  split at decoded
  case h_1 =>
    split_ifs at decoded
    · cases decoded; rfl
    · cases decoded; exact wf_writeRequest _ _ _ _
  case h_2 => exact nomatch decoded

/-- The payload has `byte_count` bytes at most, and `byte_count` is one byte (R71). -/
theorem wf_of_decodeWireResponse {bytes : List Byte} {i : Instr} (decoded : decodeWireResponse bytes = .ok i) :
    i.wf = true := by
  unfold decodeWireResponse at decoded
  split at decoded
  case h_1 a f count rest =>
    split_ifs at decoded
    cases decoded
    have taken : (rest.take count.toNat).length ≤ count.toNat := List.length_take_le _ _
    have byte : count.toNat < 256 := count.isLt
    exact decide_eq_true (by omega)
  case h_2 => exact nomatch decoded

/-- Whatever decodes is a well-formed instruction. -/
theorem wf_of_decode {code : Code} {i : Instr} (decoded : decode code = .ok i) : i.wf = true := by
  cases code with
  | command w => exact wf_of_decodeCommand decoded
  | wire format bytes =>
    cases format with
    | request => exact wf_of_decodeWireRequest decoded
    | response => exact wf_of_decodeWireResponse decoded

end Sys2Proof

namespace Sys2Proof.Machine

/-- A request whose encoding decodes is taken to be performed at its port, with its data channel. -/
theorem fetch_of_decode {s : State} {p : Nat} {code : Code} {data : List Byte} {rest : List Request} {i : Instr}
    (host : s.host = .issue p code data :: rest) (decoded : decode code = .ok i) :
    fetch s = .run i (acceptRequest p data rest s) := by
  simp only [fetch, host, decoded]

/-- Settles O5: what decodes is well-formed, and taking its request hands it to `exec`. -/
theorem stepRunsTheDecodedInstruction : Obligations.StepRunsTheDecodedInstruction :=
  fun _ _ _ _ _ _ host decoded => ⟨wf_of_decode decoded, step_of_run (fetch_of_decode host decoded)⟩

end Sys2Proof.Machine
end

/-! ### Decoding and encoding are inverse to each other (R71, R72, R77, R78) -/

section
namespace Sys2Proof

/-- The `OP` value of an operation (R78). -/
def Op.code : Op → BitVec 4
  | .chkCrc => 0x0#4
  | .asmFeed => 0x1#4
  | .prsWord => 0x2#4
  | .prsClass => 0x3#4
  | .encRead => 0x4#4
  | .encWrite => 0x5#4
  | .encUnlock => 0x6#4
  | .encSave => 0x7#4

@[simp] theorem opOfBits_code (op : Op) : opOfBits op.code = some op := by cases op <;> rfl

theorem eq_code_of_opOfBits {b : BitVec 4} {op : Op} (assigned : opOfBits b = some op) : b = op.code := by
  revert b
  cases op <;> decide

theorem requireZero_eq_ok_iff {unusedAreZero : Bool} {i j : Instr} :
    requireZero unusedAreZero i = .ok j ↔ unusedAreZero = true ∧ i = j := by
  cases unusedAreZero <;> simp [requireZero]

/-- A command word of an assigned operation is decoded by its operands (R78). -/
theorem decodeCommand_encodeCommand (op : Op) (a : Byte) (x y : Half) :
    decodeCommand (encodeCommand op.code a x y) = assemble op a x y := by
  simp [decodeCommand]

/-- The command words that decode: those of an assigned operation, with `RSV` 0, whose operands it takes. -/
theorem decodeCommand_eq_ok_iff {w : CmdWord} {i : Instr} :
    decodeCommand w = .ok i ↔
      ∃ op : Op, cmdOp w = op.code ∧ cmdRsv w = 0#4 ∧ assemble op (cmdA w) (cmdX w) (cmdY w) = .ok i := by
  constructor
  · intro decoded
    unfold decodeCommand at decoded
    split at decoded
    case h_1 => exact nomatch decoded
    case h_2 op assigned =>
      split_ifs at decoded with rsv
      exact ⟨op, eq_code_of_opOfBits assigned, rsv, decoded⟩
  · rintro ⟨op, assigned, rsv, assembled⟩
    simp [decodeCommand, assigned, rsv, assembled]

/-- An operation's operands are encoded where its decoder reads them, and the fields it does not use are 0 (R77). -/
theorem encode_of_assemble {op : Op} {a : Byte} {x y : Half} {i : Instr} (assembled : assemble op a x y = .ok i) :
    encode i = .command (encodeCommand op.code a x y) := by
  cases op with
  | encRead | encWrite => cases assembled; rfl
  | chkCrc | asmFeed | prsWord | prsClass | encUnlock | encSave =>
    obtain ⟨unused, rfl⟩ := requireZero_eq_ok_iff.1 assembled
    simp only [Bool.and_eq_true, beq_iff_eq] at unused
    simp only [unused, encode, Op.code]

theorem encode_of_decodeCommand {w : CmdWord} {i : Instr} (decoded : decodeCommand w = .ok i) :
    encode i = .command w := by
  obtain ⟨op, assigned, rsv, assembled⟩ := decodeCommand_eq_ok_iff.1 decoded
  rw [encode_of_assemble assembled, ← assigned, encodeCommand_cmd_fields w rsv]

theorem requestBytes_be16 (a f rh rl yh yl ch cl : Byte) :
    requestBytes a f (be16 rh rl) (be16 yh yl) (be16 ch cl) = [a, f, rh, rl, yh, yl, ch, cl] := by
  simp [requestBytes]

theorem decodeWireRequest_read (a : Byte) (reg count crc : Half) :
    decodeWireRequest (requestBytes a Config.fcRead reg count crc) = .ok (.wireReadReq a reg count crc) := by
  simp [decodeWireRequest, requestBytes]

theorem decodeWireRequest_write (a : Byte) (reg value crc : Half) :
    decodeWireRequest (requestBytes a Config.fcWrite reg value crc) = .ok (writeRequest a reg value crc) := by
  simp [decodeWireRequest, requestBytes, Config.fcRead, Config.fcWrite]

/-- A write request of neither control pair is a `WIRE.WRITE_REQ` (log entry 11). -/
theorem writeRequest_of_wf {a : Byte} {reg value crc : Half} (wf : (Instr.wireWriteReq a reg value crc).wf = true) :
    writeRequest a reg value crc = .wireWriteReq a reg value crc := by
  simp only [Instr.wf, isControlWrite, Bool.not_eq_true', Bool.or_eq_false_iff, Bool.and_eq_false_iff,
    beq_eq_false_iff_ne, ← not_and_or] at wf
  simp only [writeRequest, wf, if_false]

theorem encode_writeRequest (a : Byte) (reg value crc : Half) :
    encode (writeRequest a reg value crc) = .wire .request (requestBytes a Config.fcWrite reg value crc) := by
  unfold writeRequest
  split_ifs with unlock save
  · rw [unlock.1, unlock.2]; rfl
  · rw [save.1, save.2]; rfl
  · rfl

theorem encode_of_decodeWireRequest {bytes : List Byte} {i : Instr} (decoded : decodeWireRequest bytes = .ok i) :
    encode i = .wire .request bytes := by
  unfold decodeWireRequest at decoded
  split at decoded
  case h_1 a f rh rl yh yl ch cl =>
    split_ifs at decoded with read write
    · cases decoded; rw [read, ← requestBytes_be16]; rfl
    · cases decoded; rw [write, ← requestBytes_be16, encode_writeRequest]
  case h_2 => exact nomatch decoded

/-- A payload's length is its `byte_count` as long as that is one byte (R71). -/
theorem byteCountField_toNat {payload : List Byte} (fits : payload.length ≤ 255) :
    (BitVec.ofNat 8 payload.length).toNat = payload.length := by
  rw [BitVec.toNat_ofNat]; omega

theorem decodeWireResponse_responseBytes (a : Byte) {payload : List Byte} (crc : Half)
    (fits : payload.length ≤ 255) :
    decodeWireResponse (responseBytes a payload crc) = .ok (.wireReadResp a payload crc) := by
  simp [decodeWireResponse, responseBytes, byteCountField_toNat fits, -BitVec.toNat_ofNat]

/-- A list of `n + 2` elements is its first `n` and the two behind them. -/
theorem take_append_last_two {n : Nat} {l : List Byte} (length : l.length = n + 2) :
    l.take n ++ [l.getD n 0#8, l.getD (n + 1) 0#8] = l := by
  have last : l.drop n = [l.getD n 0#8, l.getD (n + 1) 0#8] := by
    rw [List.drop_eq_getElem_cons (by omega), List.drop_eq_getElem_cons (by omega), List.drop_of_length_le (by omega)]
    simp [length]
  rw [← last, List.take_append_drop]

theorem encode_of_decodeWireResponse {bytes : List Byte} {i : Instr} (decoded : decodeWireResponse bytes = .ok i) :
    encode i = .wire .response bytes := by
  unfold decodeWireResponse at decoded
  split at decoded
  case h_1 a f count rest =>
    split_ifs at decoded with read length
    cases decoded
    have counted : (rest.take count.toNat).length = count.toNat := by rw [List.length_take]; omega
    simp only [encode, responseBytes, counted, hi8_be16, lo8_be16, BitVec.ofNat_toNat, BitVec.setWidth_eq,
      List.cons_append, List.nil_append, take_append_last_two length, read]
  case h_2 => exact nomatch decoded

/-- Decoding gives back every well-formed instruction from its encoding. -/
theorem decode_encode {i : Instr} (wf : i.wf = true) : decode (encode i) = .ok i := by
  cases i with
  | chkCrc len => exact decodeCommand_encodeCommand .chkCrc 0#8 len 0#16
  | asmFeed b => exact decodeCommand_encodeCommand .asmFeed b 0#16 0#16
  | prsWord k => exact decodeCommand_encodeCommand .prsWord 0#8 k 0#16
  | prsClass => exact decodeCommand_encodeCommand .prsClass 0#8 0#16 0#16
  | encRead a reg count => exact decodeCommand_encodeCommand .encRead a reg count
  | encWrite a reg value => exact decodeCommand_encodeCommand .encWrite a reg value
  | encUnlock a => exact decodeCommand_encodeCommand .encUnlock a 0#16 0#16
  | encSave a => exact decodeCommand_encodeCommand .encSave a 0#16 0#16
  | wireReadReq a reg count crc => exact decodeWireRequest_read a reg count crc
  | wireWriteReq a reg value crc =>
    exact (decodeWireRequest_write a reg value crc).trans (congrArg Except.ok (writeRequest_of_wf wf))
  | wireUnlock a crc => exact decodeWireRequest_write a Config.regUnlock Config.keyUnlock crc
  | wireSave a crc => exact decodeWireRequest_write a Config.regSave Config.valSave crc
  | wireReadResp a payload crc => exact decodeWireResponse_responseBytes a crc (of_decide_eq_true wf)

/-- Encoding gives back every code from the instruction it decodes to. -/
theorem encode_of_decode {code : Code} {i : Instr} (decoded : decode code = .ok i) : encode i = code := by
  cases code with
  | command w => exact encode_of_decodeCommand decoded
  | wire format bytes =>
    cases format with
    | request => exact encode_of_decodeWireRequest decoded
    | response => exact encode_of_decodeWireResponse decoded

/-- Settles O9, by the instruction's row: `decode_encode`. -/
theorem decodingAnEncodingGivesTheInstructionBack : Obligations.DecodingAnEncodingGivesTheInstructionBack :=
  fun _ => decode_encode

/-- Settles O10, by the code's format: `encode_of_decode`. -/
theorem everyDecodedCodeIsThatInstructionsEncoding : Obligations.EveryDecodedCodeIsThatInstructionsEncoding :=
  fun _ _ decoded => ⟨wf_of_decode decoded, encode_of_decode decoded⟩

end Sys2Proof
end

/-! ### A command word is assigned exactly where it matches a row; the others are refused (R78, R80, R203) -/

section
namespace Sys2Proof

/-- A command word is its five fields (R77). -/
theorem cmdWord_ext_iff {v w : CmdWord} :
    v = w ↔ cmdOp v = cmdOp w ∧ cmdRsv v = cmdRsv w ∧ cmdA v = cmdA w ∧ cmdX v = cmdX w ∧ cmdY v = cmdY w := by
  refine ⟨fun same => by simp [same], fun ⟨op, rsv, a, x, y⟩ => BitVec.eq_of_toNat_eq ?_⟩
  obtain ⟨vop, vrsv, va, vx, vy⟩ := cmd_fields_toNat v
  obtain ⟨wop, wrsv, wa, wx, wy⟩ := cmd_fields_toNat w
  rw [op] at vop
  rw [rsv] at vrsv
  rw [a] at va
  rw [x] at vx
  rw [y] at vy
  omega

@[simp] theorem cmdOp_and (v w : CmdWord) : cmdOp (v &&& w) = cmdOp v &&& cmdOp w := BitVec.extractLsb'_and
@[simp] theorem cmdRsv_and (v w : CmdWord) : cmdRsv (v &&& w) = cmdRsv v &&& cmdRsv w := BitVec.extractLsb'_and
@[simp] theorem cmdA_and (v w : CmdWord) : cmdA (v &&& w) = cmdA v &&& cmdA w := BitVec.extractLsb'_and
@[simp] theorem cmdX_and (v w : CmdWord) : cmdX (v &&& w) = cmdX v &&& cmdX w := BitVec.extractLsb'_and
@[simp] theorem cmdY_and (v w : CmdWord) : cmdY (v &&& w) = cmdY v &&& cmdY w := BitVec.extractLsb'_and

/-- The mask of an operation: `OP`, `RSV` and the fields that the operation does not use (R78). -/
def Op.mask : Op → CmdWord
  | .chkCrc | .prsWord => 0xFFFF0000FFFF#48
  | .asmFeed | .encUnlock | .encSave => 0xFF00FFFFFFFF#48
  | .prsClass => 0xFFFFFFFFFFFF#48
  | .encRead | .encWrite => 0xFF0000000000#48

/-- The match and mask of an operation; the match has its code and 0 in every other field (R78). -/
def Op.row (op : Op) : CmdWord × CmdWord := (encodeCommand op.code 0#8 0#16 0#16, op.mask)

/-- The rows of R78 are those of the operations. -/
theorem mem_operationRows_iff {row : CmdWord × CmdWord} :
    row ∈ Machine.operationRows ↔ ∃ op : Op, op.row = row := by
  constructor
  · have rows : Machine.operationRows =
        [Op.chkCrc, .asmFeed, .prsWord, .prsClass, .encRead, .encWrite, .encUnlock, .encSave].map Op.row := by decide
    rw [rows, List.mem_map]
    exact fun ⟨op, _, same⟩ => ⟨op, same⟩
  · rintro ⟨op, rfl⟩
    cases op <;> decide

/-- A row of an operation compares each field of the word with the operation's, where the mask has it. -/
theorem matchesRow_row (w : CmdWord) (op : Op) :
    Machine.matchesRow w op.row = true ↔
      cmdOp w &&& cmdOp op.mask = op.code ∧ cmdRsv w &&& cmdRsv op.mask = 0#4 ∧ cmdA w &&& cmdA op.mask = 0#8 ∧
        cmdX w &&& cmdX op.mask = 0#16 ∧ cmdY w &&& cmdY op.mask = 0#16 := by
  simp [Machine.matchesRow, Op.row, cmdWord_ext_iff]

/-- Every mask has the whole of `OP` and of `RSV`. -/
theorem Op.mask_head (op : Op) : cmdOp op.mask = BitVec.allOnes 4 ∧ cmdRsv op.mask = BitVec.allOnes 4 := by
  cases op <;> decide

/-- An operation takes the fields that its mask has only as 0. -/
theorem assemble_isOk_iff (op : Op) (a : Byte) (x y : Half) :
    (∃ i, assemble op a x y = .ok i) ↔
      a &&& cmdA op.mask = 0#8 ∧ x &&& cmdX op.mask = 0#16 ∧ y &&& cmdY op.mask = 0#16 := by
  have byteOnes : a &&& 0xFF#8 = a := BitVec.and_allOnes
  have halfOnes (v : Half) : v &&& 0xFFFF#16 = v := BitVec.and_allOnes
  cases op <;> simp [assemble, requireZero_eq_ok_iff, Op.mask, cmdA, cmdX, cmdY, byteOnes, halfOnes, and_assoc]

/-- A command word decodes exactly where it matches the row of an operation. -/
theorem decodeCommand_isOk_iff (w : CmdWord) :
    (∃ i, decodeCommand w = .ok i) ↔ ∃ op : Op, Machine.matchesRow w op.row = true := by
  simp only [decodeCommand_eq_ok_iff, matchesRow_row, (Op.mask_head _).1, (Op.mask_head _).2, BitVec.and_allOnes,
    ← assemble_isOk_iff]
  exact exists_comm.trans (by simp only [exists_and_left])

theorem opOfBits_eq_none_iff : ∀ {b : BitVec 4}, opOfBits b = none ↔ 8 ≤ b.toNat := by decide

theorem error_of_assemble {op : Op} {a : Byte} {x y : Half} {r : Reject} (rejected : assemble op a x y = .error r) :
    r = .reservedField := by
  have required {zero : Bool} {i : Instr} (fails : requireZero zero i = .error r) : r = .reservedField := by
    cases zero with
    | true => exact nomatch fails
    | false => exact (Except.error.inj fails).symm
  cases op with
  | encRead | encWrite => exact nomatch rejected
  | chkCrc | asmFeed | prsWord | prsClass | encUnlock | encSave => exact required rejected

/-- Why a command word is rejected: the reserved `OP` comes first (R80, R203). -/
theorem error_of_decodeCommand {w : CmdWord} {r : Reject} (rejected : decodeCommand w = .error r) :
    r = if 8 ≤ w.toNat / 2 ^ 44 then .reservedOp else .reservedField := by
  rw [← (cmd_fields_toNat w).1]
  unfold decodeCommand at rejected
  split at rejected
  case h_1 reserved =>
    rw [if_pos (opOfBits_eq_none_iff.1 reserved)]
    exact (Except.error.inj rejected).symm
  case h_2 op assigned =>
    have low : ¬ 8 ≤ (cmdOp w).toNat := by rw [← opOfBits_eq_none_iff, assigned]; exact Option.some_ne_none op
    rw [if_neg low]
    split_ifs at rejected
    · exact error_of_assemble rejected
    · exact (Except.error.inj rejected).symm

/-- Settles O8: the rows of R78 are the operations' rows. -/
theorem commandWordDecodesIffItMatchesARow : Obligations.CommandWordDecodesIffItMatchesARow := by
  intro w
  simp only [mem_operationRows_iff, exists_exists_eq_and]
  exact decodeCommand_isOk_iff w

end Sys2Proof

namespace Sys2Proof.Machine

/-- A request whose encoding does not decode is settled at once. -/
theorem step_of_decode_error {s : State} {p : Nat} {code : Code} {data : List Byte} {rest : List Request} {r : Reject}
    (host : s.host = .issue p code data :: rest) (rejected : decode code = .error r) :
    step s = .next (performUndecoded code r (acceptRequest p data rest s)) :=
  step_of_settled (by simp only [fetch, host, rejected])

/-- Settles O7: a word of no row does not decode, and the reason it is rejected for is the answer. -/
theorem reservedCommandWordsAreRefusedByName : Obligations.ReservedCommandWordsAreRefusedByName := by
  intro s p w data rest host unmatched
  cases decoded : decodeCommand w with
  | ok i =>
    obtain ⟨row, listed, matched⟩ := (commandWordDecodesIffItMatchesARow w).1 ⟨i, decoded⟩
    exact absurd matched (by simp [unmatched row listed])
  | error r =>
    rw [step_of_decode_error host decoded, error_of_decodeCommand decoded]
    split_ifs <;> rfl

end Sys2Proof.Machine
end

/-! ### What the encoders answer is a wire frame with a valid checksum (R72, R105, R170, R171) -/

section
namespace Sys2Proof.Machine

@[simp] theorem length_crcBytes (m : List Byte) : (crcBytes m).length = Config.crcLen := rfl

/-- The checksum field of a stamped message is the stamp (R74, R150). -/
theorem checksumField_append_crcBytes (m : List Byte) : checksumField (m ++ crcBytes m) = crc m := by
  simp [checksumField, fieldAt, byteAt, memRead, spaceBytes, crcBytes, Config.crcLen, -hi8_crc, -lo8_crc]

/-- A message stamped with its own checksum passes `CRC_OK` (R105, R106). -/
theorem crcOk_append_crcBytes (m : List Byte) : crcOk (m ++ crcBytes m) = true := by
  simp [crcOk, checksumField_append_crcBytes]

/-- What an encoder builds is the request of R72 with its checksum in the checksum field. -/
theorem buildRequest_eq_requestBytes (a f : Byte) (x y : Half) :
    buildRequest a f x y = requestBytes a f x y (crc [a, f, hi8 x, lo8 x, hi8 y, lo8 y]) := rfl

/-- The instruction answers a request that decodes as `decoded` says of its checksum field, and that passes `CRC_OK`. -/
def AnswersValidRequest (i : Instr) (decoded : Half → Instr) : Prop :=
  ∀ s : State, ∃ bytes c, exec i s = .next { s with answer := .request bytes } ∧ bytes.length = 8 ∧
    crcOk bytes = true ∧ decode (.wire .request bytes) = .ok (decoded c)

/-- An encoder that answers what `buildRequest` builds, answers a valid request. -/
theorem answersValidRequest_of_buildRequest {i : Instr} {a f : Byte} {x y : Half} {decoded : Half → Instr}
    (answers : ∀ s, exec i s = .next (s.reply (.request (buildRequest a f x y))))
    (decodes : ∀ c, decodeWireRequest (requestBytes a f x y c) = .ok (decoded c)) : AnswersValidRequest i decoded :=
  fun s => ⟨buildRequest a f x y, crc [a, f, hi8 x, lo8 x, hi8 y, lo8 y], answers s, rfl, crcOk_append_crcBytes _,
    (congrArg decodeWireRequest (buildRequest_eq_requestBytes a f x y)).trans (decodes _)⟩

/-- Settles O51: each encoder's request is of its row, the unlock and the save request by their pairs. -/
theorem encodedRequestsAreWireFramesWithValidChecksums :
    Obligations.EncodedRequestsAreWireFramesWithValidChecksums := by
  intro s a reg y i listed
  simp only [List.mem_cons, List.not_mem_nil, or_false] at listed
  rcases listed with rfl | rfl | rfl | rfl
  · exact answersValidRequest_of_buildRequest (fun _ => rfl) (decodeWireRequest_read a reg y) s
  · exact answersValidRequest_of_buildRequest (fun _ => rfl) (decodeWireRequest_write a reg y) s
  · exact answersValidRequest_of_buildRequest (decoded := .wireUnlock a) (fun _ => rfl)
      (decodeWireRequest_write a Config.regUnlock Config.keyUnlock) s
  · exact answersValidRequest_of_buildRequest (decoded := .wireSave a) (fun _ => rfl)
      (decodeWireRequest_write a Config.regSave Config.valSave) s

/-- Settles O47: the request built is the stamped one. -/
theorem encReadBuildsTheReadRequest : Obligations.EncReadBuildsTheReadRequest :=
  fun s a reg count => exec_encRead a reg count s

/-- Settles O48: the request built is the stamped one. -/
theorem encWriteBuildsTheWriteRequest : Obligations.EncWriteBuildsTheWriteRequest :=
  fun s a reg value => exec_encWrite a reg value s

end Sys2Proof.Machine
end

/-! ### The field that `PRS.WORD` answers (R75, R152, R153) -/

section
namespace Sys2Proof.Machine

/-- What makes a parser operand well-formed (R152). -/
theorem length_of_wellFormedFrame {f : List Byte} (wf : wellFormedFrame f = true) : f.length = byteCount f + 5 := by
  simp only [wellFormedFrame, Bool.and_eq_true, decide_eq_true_eq] at wf
  exact wf.2

/-- The payload of a well-formed frame is `byte_count` bytes long (R150). -/
theorem length_payloadOf {f : List Byte} (wf : wellFormedFrame f = true) : (payloadOf f).length = byteCount f := by
  have := length_of_wellFormedFrame wf
  simp only [payloadOf, List.length_take, List.length_drop, Config.hdrLen, Config.frameOverhead]
  omega

/-- A payload byte stands behind the three header bytes (R75). -/
theorem byteAt_payloadOf {f : List Byte} {i : Nat} (within : i < (payloadOf f).length) :
    byteAt (payloadOf f) i = byteAt f (3 + i) := by
  have : i < f.length - Config.frameOverhead := by
    simp only [payloadOf, List.length_take] at within
    omega
  rw [payloadOf, byteAt_take this]
  simp [byteAt, memRead, spaceBytes, Config.hdrLen]

/-- R75's formula: the two's-complement reading of two bytes, high byte first. -/
theorem sint16_be16 (h l : Byte) :
    sint16 (be16 h l) =
      (let u : Int := h.toNat * 256 + l.toNat
       if 32768 ≤ u then u - 65536 else u) := by
  simp only [sint16, be16_toNat]
  split_ifs <;> omega

/-- A payload field by the bytes of its frame. -/
theorem payloadField_eq {f : List Byte} {k : Nat} (within : 2 * k + 1 < (payloadOf f).length) :
    payloadField f k = sint16 (be16 (byteAt f (3 + 2 * k)) (byteAt f (4 + 2 * k))) := by
  have second : 3 + (2 * k + 1) = 4 + 2 * k := by omega
  rw [payloadField, fieldAt, byteAt_payloadOf (by omega), byteAt_payloadOf within, second]

theorem prsWordAnswer_of_field {f : List Byte} {k : Half} (wf : wellFormedFrame f = true)
    (within : k.toNat < byteCount f / 2) : prsWordAnswer k f = .word (payloadField f k.toNat) := by
  simp [prsWordAnswer, wf, length_payloadOf wf, within]

/-- Settles O41: a field below half the byte count lies within the payload. -/
theorem prsWordAnswersTheSignedField : Obligations.PrsWordAnswersTheSignedField := by
  intro s k wf within
  have inside : 2 * k.toNat + 1 < (payloadOf s.data).length := by
    rw [length_payloadOf wf, byteCount]
    omega
  rw [exec_prsWord, prsWordAnswer_of_field wf within, payloadField_eq inside, sint16_be16]
  rfl

end Sys2Proof.Machine
end

/-! ### Arriving bytes are the feeds of `ASM.FEEDN` (R70, R79, R82, R131) -/

section
namespace Sys2Proof.Machine

/-- An instruction whose encoding is bytes of the wire feeds these bytes (R70, R82; log entry 4). -/
theorem exec_of_encode_wire {i : Instr} {f : WireFormat} {bytes : List Byte} (wire : encode i = .wire f bytes)
    (s : State) : exec i s = .next (feedChunk bytes s) := by
  cases i with
  | wireReadReq | wireWriteReq | wireUnlock | wireSave | wireReadResp => cases wire; rfl
  | chkCrc | asmFeed | prsWord | prsClass | encRead | encWrite | encUnlock | encSave => exact nomatch wire

/-- Bytes of the wire are fed whether or not they have the shape of a frame kind (R79). -/
theorem step_of_wire {s : State} {p : Nat} {f : WireFormat} {bytes data : List Byte} {rest : List Request}
    (host : s.host = .issue p (.wire f bytes) data :: rest) :
    step s = .next (feedChunk bytes (acceptRequest p data rest s)) := by
  cases decoded : decode (.wire f bytes) with
  | ok i =>
    rw [step_of_run (fetch_of_decode host decoded)]
    exact exec_of_encode_wire (encode_of_decode decoded) _
  | error r => exact step_of_decode_error host decoded

/-- Bytes arriving at an assembler write its `BUF` and the answer alone (R33, R121). -/
theorem feedChunk_frame {s : State} {inst : Instance} (found : s.current = some inst) (bytes : List Byte) :
    (∀ q, q ≠ s.port → (feedChunk bytes s).instanceAt q = s.instanceAt q) ∧
      (feedChunk bytes s).port = s.port ∧ (feedChunk bytes s).data = s.data ∧ (feedChunk bytes s).host = s.host := by
  rw [feedChunk_of_current found]
  exact ⟨fun q other => State.instanceAt_setInstance_other s other _, rfl, rfl, rfl⟩

/-- Bytes arriving at an assembler answer and leave every assembler as `ASM.FEEDN` of them does, served in a state `u`
with the same assemblers (R131). -/
theorem feedChunk_eq_serve_asmFeedN {s u : State} {inst : Instance} (found : s.current = some inst)
    (alike : ∀ q, s.instanceAt q = u.instanceAt q) (bytes : List Byte) :
    (feedChunk bytes s).answer = .emissions (emissionsOf 0 (serve (asmFeedN s.port bytes) u).answers) ∧
      ∀ q, (feedChunk bytes s).instanceAt q = (serve (asmFeedN s.port bytes) u).state.instanceAt q := by
  obtain ⟨answers, here, elsewhere⟩ :=
    serve_asmFeedN s.port inst.addrMask bytes u inst.buf ((alike s.port).symm.trans found)
  refine ⟨?_, fun q => ?_⟩
  · rw [answers, emissionsOf_feedAnswers, feedChunk_of_current found, State.reply_answer]
  · by_cases same : q = s.port
    · subst same
      rw [here, feedChunk_of_current found, State.instanceAt_reply, State.instanceAt_setInstance_same]
    · rw [elsewhere q same, (feedChunk_frame found bytes).1 q same, alike]

/-- Settles O33: a request of wire bytes is their chunk. -/
theorem arrivingBytesAreFedOneByOne : Obligations.ArrivingBytesAreFedOneByOne := by
  intro s p f bytes data rest inst host found
  have current : (acceptRequest p data rest s).current = some inst := found
  obtain ⟨answer, instances⟩ := feedChunk_eq_serve_asmFeedN (u := s) current (fun _ => rfl) bytes
  obtain ⟨-, -, -, script⟩ := feedChunk_frame current bytes
  exact ⟨_, step_of_wire host, answer, instances, script⟩

/-- Settles O35: each kind's bytes are its chunk. -/
theorem wireFramesCompleteAsFeedsOfTheirBytes : Obligations.WireFramesCompleteAsFeedsOfTheirBytes := by
  intro s inst a reg y c payload found i _ f bytes wire
  obtain ⟨answer, instances⟩ := feedChunk_eq_serve_asmFeedN (u := s) found (fun _ => rfl) bytes
  exact ⟨_, exec_of_encode_wire wire s, answer, instances, feedChunk_frame found bytes⟩

end Sys2Proof.Machine
end

/-! ### A valid response that meets an empty buffer is held to its last byte and then emitted (R126, R127, R137) -/

section
namespace Sys2Proof.Machine

/-- The settle loop ends at once where the candidate is not yet to be tested, or not yet complete (R125, R126). -/
theorem settle_of_pending {mask : AddrMask} {buf : List Byte}
    (pending : verdict mask buf = .functionPending ∨ verdict mask buf = .incomplete) :
    settle mask buf = { emitted := none, buf := buf } := by
  cases buf with
  | nil => rfl
  | cons b rest => rcases pending with pending | pending <;> rw [settle_cons, pending]

/-- A frame at the front is emitted, and what stands behind it is kept (R127, R128). -/
theorem settle_of_emit {mask : AddrMask} {buf : List Byte} {n : Nat} (emits : verdict mask buf = .emit n) :
    settle mask buf = { emitted := some (buf.take n), buf := buf.drop n } := by
  cases buf with
  | nil => exact nomatch emits
  | cons b rest => rw [settle_cons, emits]; rfl

theorem expectedLength_append {f : List Byte} (header : 3 ≤ f.length) (rest : List Byte) :
    expectedLength (f ++ rest) = expectedLength f := by
  rw [expectedLength, expectedLength, byteCount, byteCount, byteAt_append_left header]

theorem five_le_expectedLength (f : List Byte) : 5 ≤ expectedLength f := Nat.le_add_left _ _

/-- A valid response at the front of `BUF` passes every test. -/
theorem verdict_of_validResponse {mask : AddrMask} {f : List Byte} (valid : validResponse mask f) (rest : List Byte) :
    verdict mask (f ++ rest) = .emit f.length := by
  obtain ⟨address, function, length, checksum⟩ := valid
  have long : 5 ≤ f.length := length ▸ five_le_expectedLength f
  have expected : expectedLength (f ++ rest) = f.length := (expectedLength_append (by omega) rest).trans length.symm
  rw [← byteAt_append_left (show 0 < f.length by omega) rest] at address
  rw [← byteAt_append_left (show 1 < f.length by omega) rest] at function
  have held : (f ++ rest).length ≠ 0 ∧ ¬ (f ++ rest).length ≤ 2 ∧ ¬ (f ++ rest).length < f.length := by
    rw [List.length_append]
    omega
  simp only [verdict, held, address, function, expected, List.take_left, checksum, Bool.not_true, Bool.false_eq_true,
    ne_eq, not_true_eq_false, if_false, if_true]

/-- A valid response of which bytes are still missing is pending. -/
theorem verdict_of_partial_validResponse {mask : AddrMask} {held rest : List Byte}
    (valid : validResponse mask (held ++ rest)) (started : held ≠ []) (unfinished : rest ≠ []) :
    verdict mask held = .functionPending ∨ verdict mask held = .incomplete := by
  obtain ⟨address, function, length, -⟩ := valid
  have startedPos : 0 < held.length := List.length_pos_of_ne_nil started
  have unfinishedPos : 0 < rest.length := List.length_pos_of_ne_nil unfinished
  rw [byteAt_append_left startedPos] at address
  by_cases short : held.length ≤ 2
  · left
    simp [verdict, started, address, short]
  · right
    rw [byteAt_append_left (by omega)] at function
    rw [expectedLength_append (by omega), List.length_append] at length
    simp [verdict, started, address, short, function, show held.length < expectedLength held by omega]

/-- The rest of a valid response, fed behind its first bytes: emitted with the last one. -/
theorem feedMany_rest_of_validResponse {mask : AddrMask} (rest : List Byte) : ∀ {held : List Byte} (i : Nat),
    validResponse mask (held ++ rest) → rest ≠ [] →
      feedMany mask i held rest = { emissions := [(i + rest.length - 1, held ++ rest)], buf := [] } := by
  induction rest with
  | nil => exact fun _ _ unfinished => absurd rfl unfinished
  | cons b rest ih =>
    intro held i valid _
    rw [List.append_cons] at valid
    by_cases last : rest = []
    · subst last
      rw [List.append_nil] at valid
      have emits := verdict_of_validResponse valid []
      have fed := settle_of_emit emits
      rw [List.append_nil] at fed
      simp [feedMany_cons, feed, bufAppend, fed]
    · have started : held ++ [b] ≠ [] := by simp
      have fed : feed mask held b = { emitted := none, buf := held ++ [b] } :=
        settle_of_pending (verdict_of_partial_validResponse valid started last)
      rw [feedMany_cons, fed, ih (i + 1) valid last]
      simp [Nat.add_assoc, Nat.add_comm]

/-- A valid response fed to an empty buffer is emitted at its last byte, and leaves the buffer empty (R137). -/
theorem feedMany_of_validResponse {mask : AddrMask} {f : List Byte} (valid : validResponse mask f) :
    feedMany mask 0 [] f = { emissions := [(f.length - 1, f)], buf := [] } := by
  have nonempty : f ≠ [] := by
    rintro rfl
    obtain ⟨-, -, length, -⟩ := valid
    exact nomatch length
  simpa using feedMany_rest_of_validResponse (held := []) f 0 valid nonempty

/-- A response from a configured address, stamped with its checksum, is valid (R71, R105). -/
theorem validResponse_stamped {mask : AddrMask} {a : Byte} {payload : List Byte} (configured : inAddrs mask a = true)
    (fits : payload.length ≤ 255) :
    validResponse mask (responseBytes a payload
      (crc ([a, 0x03#8, BitVec.ofNat 8 payload.length] ++ payload))) := by
  obtain ⟨function, length⟩ := Laws.EncodedShape.wireReadResp a payload
    (crc ([a, 0x03#8, BitVec.ofNat 8 payload.length] ++ payload)) (decide_eq_true fits)
  exact ⟨configured, function, length, crcOk_append_crcBytes _⟩

theorem length_responseBytes (a : Byte) (payload : List Byte) (c : Half) :
    (responseBytes a payload c).length = payload.length + 5 := by
  simp [responseBytes]

/-- Settles O37: the arriving bytes are a valid response. -/
theorem arrivingResponseIsEmittedWhole : Obligations.ArrivingResponseIsEmittedWhole := by
  intro s mask a payload found configured fits
  have fed := feedMany_of_validResponse (validResponse_stamped configured fits)
  refine ⟨_, exec_of_encode_wire rfl s, ?_, ?_⟩
  · rw [feedChunk_of_current found, State.reply_answer, fed, length_responseBytes]
    rfl
  · rw [feedChunk_of_current found, State.instanceAt_reply, State.instanceAt_setInstance_same, fed]

end Sys2Proof.Machine
end

/-! ### The checksum unit: its tables and `CHK.CRC` (R100, R102, R107, R204) -/

section
namespace Sys2Proof.Machine

/-- Settles O12: entry by entry, the tables are the lists that the generating rule gives. -/
theorem tablesHoldWhatTheGeneratingRuleGives : Obligations.TablesHoldWhatTheGeneratingRuleGives :=
  ⟨romHi_length, romLo_length, fun i => ⟨memRead_romHi i, memRead_romLo i⟩⟩

/-- Every implementation performs the requests of at most 258 bytes (R12). -/
theorem crcLengthAllowed_of_le {len : Nat} (floor : len ≤ 258) : crcLengthAllowed len = true := by
  simp [crcLengthAllowed, Config.crcMaxLenFloor, floor]

/-- Beyond 258 bytes `P_CRC_MAXLEN` alone decides (R204). -/
theorem crcLengthAllowed_of_lt {len : Nat} (beyond : 258 < len) :
    crcLengthAllowed len = !Config.crcMaxLen.any fun m => decide (m < len) := by
  have notFloor : ¬ len ≤ Config.crcMaxLenFloor := Nat.not_le_of_lt beyond
  simp only [crcLengthAllowed, notFloor, decide_false, Bool.false_or]
  cases Config.crcMaxLen with
  | none => rfl
  | some m => rw [Option.any_some, ← decide_not, decide_eq_decide, Nat.not_lt]

theorem chkCrcAnswer_of_short {len : Half} {data : List Byte} (short : data.length < len.toNat) :
    chkCrcAnswer len data = .refused .crcLength := if_pos short

/-- With enough data the answer is settled by the length alone, the checksum being the direct form's (R103). -/
theorem chkCrcAnswer_of_enough {len : Half} {data : List Byte} (enough : len.toNat ≤ data.length) :
    chkCrcAnswer len data =
      if crcLengthAllowed len.toNat then .checksum (directCrc (data.take len.toNat))
      else .refused .crcLength := by
  rw [chkCrcAnswer, if_neg (Nat.not_lt_of_le enough), crc_eq_directCrc]

/-- Settles O16: the refusal is the answer for short data. -/
theorem chkCrcBeyondItsDataIsRefused : Obligations.ChkCrcBeyondItsDataIsRefused := by
  intro s len short
  rw [exec_chkCrc, chkCrcAnswer_of_short short]
  rfl

/-- Settles O15: up to 258 bytes every length is taken, beyond them the test is that of `P_CRC_MAXLEN`. -/
theorem chkCrcAnswersTheChecksumOfItsData : Obligations.ChkCrcAnswersTheChecksumOfItsData := by
  intro s len enough
  rw [exec_chkCrc, chkCrcAnswer_of_enough enough]
  constructor
  · intro floor
    rw [crcLengthAllowed_of_le floor]
    rfl
  · intro beyond
    rw [crcLengthAllowed_of_lt beyond]
    cases Config.crcMaxLen.any fun m => decide (m < len.toNat) <;> rfl

end Sys2Proof.Machine
end

/-! ### The settle loop by the rows of R202 (R122, R123, R125, R126, R129) -/

section
namespace Sys2Proof.Machine

variable {mask : AddrMask} {buf : List Byte}

/-- Row 2: the first byte is no configured address (R123). -/
theorem verdict_of_wrongAddress (nonempty : buf ≠ []) (address : inAddrs mask (byteAt buf 0) = false) :
    verdict mask buf = .wrongAddress := by
  simp [verdict, nonempty, address]

/-- Row 3: behind a configured address, up to two bytes are not tested further (R125). -/
theorem verdict_of_functionPending (nonempty : buf ≠ []) (address : inAddrs mask (byteAt buf 0) = true)
    (short : buf.length ≤ 2) : verdict mask buf = .functionPending := by
  simp [verdict, nonempty, address, short]

/-- From the third byte on, behind a configured address, function code, length and checksum decide (R125 to R129). -/
theorem verdict_of_functionTested (address : inAddrs mask (byteAt buf 0) = true) (tested : 2 < buf.length) :
    verdict mask buf =
      if byteAt buf 1 ≠ Config.fcRead then .wrongFunction
      else if buf.length < expectedLength buf then .incomplete
      else if crcOk (buf.take (expectedLength buf)) then .emit (expectedLength buf)
      else .badChecksum := by
  have held : buf.length ≠ 0 ∧ ¬ buf.length ≤ 2 := by omega
  simp only [verdict, held, address, Bool.not_true, Bool.false_eq_true, if_false]

/-- Row 4: the second byte is not 0x03 (R125). -/
theorem verdict_of_wrongFunction (address : inAddrs mask (byteAt buf 0) = true) (tested : 2 < buf.length)
    (function : byteAt buf 1 ≠ Config.fcRead) : verdict mask buf = .wrongFunction := by
  rw [verdict_of_functionTested address tested, if_pos function]

/-- Row 5: the candidate has not reached its expected length (R126). -/
theorem verdict_of_incomplete (address : inAddrs mask (byteAt buf 0) = true) (tested : 2 < buf.length)
    (function : byteAt buf 1 = Config.fcRead) (incomplete : buf.length < expectedLength buf) :
    verdict mask buf = .incomplete := by
  rw [verdict_of_functionTested address tested, if_neg (not_not.2 function), if_pos incomplete]

/-- Row 6 and the emission: a complete candidate is judged by its checksum alone (R127, R129). -/
theorem verdict_of_complete (address : inAddrs mask (byteAt buf 0) = true) (tested : 2 < buf.length)
    (function : byteAt buf 1 = Config.fcRead) (complete : expectedLength buf ≤ buf.length) :
    verdict mask buf =
      if crcOk (buf.take (expectedLength buf)) then .emit (expectedLength buf) else .badChecksum := by
  rw [verdict_of_functionTested address tested, if_neg (not_not.2 function), if_neg (Nat.not_lt_of_le complete)]

/-- The rows of R202 on which the first byte is dropped: the second, the fourth and the sixth. -/
def DropsFirst (mask : AddrMask) (buf : List Byte) : Prop :=
  verdict mask buf = .wrongAddress ∨ verdict mask buf = .wrongFunction ∨ verdict mask buf = .badChecksum

/-- After a drop the rest is settled (R123, R125, R129). -/
theorem settle_of_dropsFirst {b : Byte} {rest : List Byte} (drops : DropsFirst mask (b :: rest)) :
    settle mask (b :: rest) = settle mask rest := by
  rcases drops with drops | drops | drops <;> rw [settle_cons, drops]

/-- A single byte is held where it is a configured address, and dropped where it is not (R123, R125). -/
theorem settle_singleton (mask : AddrMask) (b : Byte) :
    settle mask [b] = { emitted := none, buf := if inAddrs mask b then [b] else [] } := by
  cases address : inAddrs mask b with
  | true => exact settle_of_pending (.inl (verdict_of_functionPending (by simp) address (by simp)))
  | false => exact settle_of_dropsFirst (.inl (verdict_of_wrongAddress (by simp) address))

/-- Two bytes cannot emit: they are held from the first configured address on (R123, R125). -/
theorem settle_pair (mask : AddrMask) (a b : Byte) :
    settle mask [a, b] =
      { emitted := none, buf := if inAddrs mask a then [a, b] else if inAddrs mask b then [b] else [] } := by
  cases address : inAddrs mask a with
  | true => exact settle_of_pending (.inl (verdict_of_functionPending (by simp) address (by simp)))
  | false =>
    exact (settle_of_dropsFirst (.inl (verdict_of_wrongAddress (by simp) address))).trans (settle_singleton mask b)

/-- With no configured address every byte is dropped (R121, R123). -/
theorem settle_emptySet (buf : List Byte) : settle 0#256 buf = { emitted := none, buf := [] } := by
  induction buf with
  | nil => rfl
  | cons b rest ih =>
    have address : inAddrs 0#256 b = false := BitVec.getLsbD_zero
    rw [settle_of_dropsFirst (.inl (verdict_of_wrongAddress (by simp) address)), ih]

/-- With more iterations than bytes, the loop of R122 returns what `settle` gives (R133). -/
theorem settleLoop_eq_settle (mask : AddrMask) (buf : List Byte) :
    ∀ {fuel : Nat}, buf.length < fuel → settleLoop mask fuel buf = some (settle mask buf) := by
  induction buf with
  | nil =>
    rintro (_ | fuel) enough
    · exact absurd enough (Nat.not_lt_zero _)
    · rfl
  | cons b rest ih =>
    rintro (_ | fuel) enough
    · exact absurd enough (Nat.not_lt_zero _)
    have again (drops : DropsFirst mask (b :: rest)) :
        settleLoop mask fuel (bufDropFront 1 (b :: rest)) = some (settle mask (b :: rest)) := by
      rw [settle_of_dropsFirst drops]
      exact ih (Nat.lt_of_succ_lt_succ enough)
    rw [settleLoop, if_neg (show ¬ (b :: rest).length = 0 by simp)]
    split_ifs with address short function incomplete checksum
    · exact again (.inl (verdict_of_wrongAddress (by simp) address))
    all_goals replace address := Bool.eq_true_of_not_eq_false address
    · rw [settle_of_pending (.inl (verdict_of_functionPending (by simp) address short))]
    all_goals replace short := Nat.lt_of_not_le short
    · exact again (.inr (.inl (verdict_of_wrongFunction address short function)))
    all_goals replace function := not_not.1 function
    · rw [settle_of_pending (.inr (verdict_of_incomplete address short function incomplete))]
    all_goals have tests := verdict_of_complete address short function (Nat.le_of_not_lt incomplete)
    · rw [settle_of_emit (tests.trans (if_pos checksum))]
      rfl
    · exact again (.inr (.inr (tests.trans (if_neg checksum))))

end Sys2Proof.Machine
end

/-! ### One feed at a port that was reset (R121 to R129) -/

section
namespace Sys2Proof.Machine

/-- The state after a feed whose settling left `r`: the assembler's `BUF` and the answer are written (R121). -/
def State.afterFeed (s : State) (mask : AddrMask) (r : Settled) : State :=
  (s.setInstance s.port { buf := r.buf, addrMask := mask }).reply (.frame r.emitted)

@[simp] theorem State.afterFeed_answer (s : State) (mask : AddrMask) (r : Settled) :
    (s.afterFeed mask r).answer = .frame r.emitted := rfl

@[simp] theorem State.instanceAt_afterFeed_same (s : State) (mask : AddrMask) (r : Settled) :
    (s.afterFeed mask r).instanceAt s.port = some { buf := r.buf, addrMask := mask } :=
  State.instanceAt_setInstance_same s s.port _

@[simp] theorem State.instanceAt_afterFeed_other (s : State) {q : Nat} (other : q ≠ s.port) (mask : AddrMask)
    (r : Settled) : (s.afterFeed mask r).instanceAt q = s.instanceAt q :=
  State.instanceAt_setInstance_other s other _

/-- What a feed leaves at its port does not depend on what was held there. -/
theorem State.instanceAt_afterFeed_setInstance (s : State) (inst : Instance) (mask : AddrMask) (r : Settled) (q : Nat) :
    ((s.setInstance s.port inst).afterFeed mask r).instanceAt q = (s.afterFeed mask r).instanceAt q := by
  by_cases here : q = s.port
  · subst here
    rw [State.instanceAt_afterFeed_same]
    exact State.instanceAt_afterFeed_same (s.setInstance s.port inst) mask r
  · rw [State.instanceAt_afterFeed_other s here,
      State.instanceAt_afterFeed_other (s.setInstance s.port inst) here, State.instanceAt_setInstance_other s here]

/-- A feed settles the buffer with its byte appended (R121, R122). -/
theorem exec_asmFeed_of_found {s : State} {inst : Instance} (found : s.instanceAt s.port = some inst) (b : Byte) :
    exec (.asmFeed b) s = .next (s.afterFeed inst.addrMask (settle inst.addrMask (inst.buf ++ [b]))) := by
  have current : s.current = some inst := found
  simp only [exec, execAsmFeed, current]
  rfl

variable {s : State} {b : Byte} {mask : AddrMask}

/-- A feed answers what settling emits, and leaves what settling leaves. -/
theorem exec_asmFeed_of_settle {buf : List Byte} {r : Settled}
    (found : s.instanceAt s.port = some { buf := buf, addrMask := mask }) (settles : settle mask (buf ++ [b]) = r) :
    ∃ t, exec (.asmFeed b) s = .next t ∧ t.answer = .frame r.emitted ∧
      t.instanceAt s.port = some { buf := r.buf, addrMask := mask } :=
  ⟨s.afterFeed mask r, settles ▸ exec_asmFeed_of_found found b, rfl, State.instanceAt_afterFeed_same s mask r⟩

/-- Where the tests drop the first byte, the feed does what it would do had that byte not been held. -/
theorem exec_asmFeed_of_dropsFirst {first : Byte} {rest : List Byte}
    (found : s.instanceAt s.port = some { buf := first :: rest, addrMask := mask })
    (drops : DropsFirst mask (first :: (rest ++ [b]))) :
    ∃ t u, exec (.asmFeed b) s = .next t ∧
      exec (.asmFeed b) (s.setInstance s.port { buf := rest, addrMask := mask }) = .next u ∧
      t.answer = u.answer ∧ ∀ q, t.instanceAt q = u.instanceAt q := by
  have same : settle mask (first :: rest ++ [b]) = settle mask (rest ++ [b]) := settle_of_dropsFirst drops
  have foundWithout : (s.setInstance s.port { buf := rest, addrMask := mask }).instanceAt s.port =
      some { buf := rest, addrMask := mask } := State.instanceAt_setInstance_same s s.port _
  refine ⟨_, _, exec_asmFeed_of_found found b, exec_asmFeed_of_found foundWithout b, ?_, fun q => ?_⟩
  · simp only [State.afterFeed_answer, same]
  · simp only [State.instanceAt_afterFeed_setInstance, same]

end Sys2Proof.Machine

namespace Sys2Proof.Machine

/-- Settles O18: `len(BUF) + 1` iterations suffice, counting the fed byte. -/
theorem feedAppendsAndRunsTheSettleLoop : Obligations.FeedAppendsAndRunsTheSettleLoop := by
  intro s b inst found
  exact ⟨_, _, _, settleLoop_eq_settle inst.addrMask (inst.buf ++ [b]) (Nat.lt_succ_self _),
    exec_asmFeed_of_found found b, rfl, State.instanceAt_afterFeed_same s _ _,
    fun q other => State.instanceAt_afterFeed_other s other _ _, rfl, rfl, rfl⟩

/-- Settles O26: row 2 drops the first byte. -/
theorem firstByteOutsideTheAddressSetIsDropped : Obligations.FirstByteOutsideTheAddressSetIsDropped := by
  intro s b mask
  constructor
  · intro found address
    have dropped : settle mask [b] = { emitted := none, buf := [] } := by rw [settle_singleton, address]; rfl
    exact exec_asmFeed_of_settle found dropped
  · intro first rest found address
    exact exec_asmFeed_of_dropsFirst found (.inl (verdict_of_wrongAddress (by simp) address))

/-- Settles O27: row 3 below three bytes, row 4 from the third on. -/
theorem functionCodeIsTestedOnceThreeBytesAreHeld : Obligations.FunctionCodeIsTestedOnceThreeBytesAreHeld := by
  intro s b mask
  constructor
  · intro held found short address
    have pending : verdict mask (held ++ [b]) = .functionPending :=
      verdict_of_functionPending (by simp) address (by simpa using short)
    exact exec_asmFeed_of_settle found (settle_of_pending (.inl pending))
  · intro first second rest found address function
    exact exec_asmFeed_of_dropsFirst found (.inr (.inl (verdict_of_wrongFunction address (by simp) function)))

/-- Settles O28: row 5. -/
theorem incompleteCandidateIsKept : Obligations.IncompleteCandidateIsKept := by
  intro s b held mask found address header function short
  rw [← byteAt_append_left (show 1 < held.length by omega) [b]] at function
  have incomplete : verdict mask (held ++ [b]) = .incomplete := by
    refine verdict_of_incomplete address ?_ function ?_ <;> rw [List.length_append]
    · exact Nat.lt_succ_of_le header
    · exact short
  exact exec_asmFeed_of_settle found (settle_of_pending (.inr incomplete))

/-- Settles O29: a valid response at the front passes every test, whatever stands behind it. -/
theorem matchingCandidateIsEmittedAndRemoved : Obligations.MatchingCandidateIsEmittedAndRemoved := by
  intro s b mask held f rest found split valid
  have settles : settle mask (held ++ [b]) = { emitted := some f, buf := rest } := by
    rw [split, settle_of_emit (verdict_of_validResponse valid rest), List.take_left, List.drop_left]
  exact exec_asmFeed_of_settle found settles

/-- Settles O30: row 6; the expected length is that of the bytes already held, which are three at least. -/
theorem checksumMismatchDropsOnlyTheFirstByte : Obligations.ChecksumMismatchDropsOnlyTheFirstByte := by
  intro s b first rest mask found address function complete header mismatch
  have expected := expectedLength_append header [b]
  rw [← byteAt_append_left (by omega) [b]] at function
  rw [← expected] at complete mismatch
  have judged := verdict_of_complete (mask := mask) (buf := first :: rest ++ [b]) address
    (by rw [List.length_append]; omega) function (by simpa using complete)
  exact exec_asmFeed_of_dropsFirst found (.inr (.inr (judged.trans (if_neg (ne_true_of_eq_false mismatch)))))

/-- Settles O31: row 4 drops the first of the three bytes, and two are left to settle. -/
theorem wrongFunctionCodeIsDroppedAtTheThirdByte : Obligations.WrongFunctionCodeIsDroppedAtTheThirdByte := by
  intro s a f b mask found address function
  have drops : DropsFirst mask [a, f, b] := .inr (.inl (verdict_of_wrongFunction address (by simp) function))
  exact exec_asmFeed_of_settle found ((settle_of_dropsFirst drops).trans (settle_pair mask f b))

/-- Settles O32: row 2 drops whatever is held. -/
theorem emptyAddressSetDropsEveryByte : Obligations.EmptyAddressSetDropsEveryByte :=
  fun _ b buf found => exec_asmFeed_of_settle found (settle_emptySet (buf ++ [b]))

end Sys2Proof.Machine
end

/-! ### Chunks of the stream: their splitting, and chunks that hold no response (R132, R138) -/

section
namespace Sys2Proof.Machine

/-- The index of the first byte only shifts the indices of the emissions (R131). -/
theorem feedMany_emissions_shift (mask : AddrMask) (bytes : List Byte) (k : Nat) : ∀ (i : Nat) (buf : List Byte),
    (feedMany mask (k + i) buf bytes).emissions =
      (feedMany mask i buf bytes).emissions.map fun e => (k + e.1, e.2) := by
  induction bytes with
  | nil => exact fun _ _ => rfl
  | cons b rest ih =>
    intro i buf
    rw [feedMany_cons, feedMany_cons, Nat.add_assoc, ih]
    cases (feed mask buf b).emitted <;> rfl

/-- The frames that feeding these bytes to the assembler emits, each with its byte's index (R131). -/
def Instance.emits (inst : Instance) (bytes : List Byte) : List (Nat × List Byte) :=
  (feedMany inst.addrMask 0 inst.buf bytes).emissions

/-- Feeding two chunks leaves what feeding them as one leaves (R132). -/
theorem Instance.fed_append (inst : Instance) (xs ys : List Byte) : inst.fed (xs ++ ys) = (inst.fed xs).fed ys := by
  simp only [Instance.fed, feedMany_append]
  rw [feedMany_buf_index inst.addrMask ys _ 0]

/-- Feeding two chunks emits what feeding them as one emits; the second's indices count from its own start (R132). -/
theorem Instance.emits_append (inst : Instance) (xs ys : List Byte) :
    inst.emits (xs ++ ys) = inst.emits xs ++ ((inst.fed xs).emits ys).map fun e => (xs.length + e.1, e.2) := by
  simp only [Instance.emits, Instance.fed, feedMany_append, Nat.zero_add]
  rw [← feedMany_emissions_shift, Nat.add_zero]

/-- One chunk of wire bytes served at a port that was reset: the answer, the assembler there, and the others (R131). -/
theorem serve_wire {s : State} {p : Nat} {inst : Instance} (found : s.instanceAt p = some inst) (f : WireFormat)
    (bytes : List Byte) (rest : List Request) :
    ∃ t, (serve (.issue p (.wire f bytes) [] :: rest) s).answers =
        (p, .emissions (inst.emits bytes)) :: (serve rest t).answers ∧
      (serve (.issue p (.wire f bytes) [] :: rest) s).state = (serve rest t).state ∧
      t.instanceAt p = some (inst.fed bytes) ∧ ∀ q, q ≠ p → t.instanceAt q = s.instanceAt q := by
  have current : (acceptRequest p [] [] s).current = some inst := found
  have fed := feedChunk_of_current current bytes
  have stepped : step { s with host := [.issue p (.wire f bytes) []] } =
      .next (feedChunk bytes (acceptRequest p [] [] s)) := step_of_wire rfl
  refine ⟨_, ?_, ?_, ?_, (feedChunk_frame current bytes).1⟩
  · rw [serve_cons stepped, fed]
    rfl
  · rw [serve_cons stepped]
  · rw [fed, State.instanceAt_reply]
    exact State.instanceAt_setInstance_same _ p _

/-- Settles O34: `Instance.emits_append` and `Instance.fed_append`, read off the served chunks. -/
theorem splittingAChunkChangesNothing : Obligations.SplittingAChunkChangesNothing := by
  intro s p f g h xs ys inst found
  obtain ⟨t, firstAnswer, firstState, foundT, othersT⟩ := serve_wire found f xs [.issue p (.wire g ys) []]
  obtain ⟨u, secondAnswer, secondState, foundU, othersU⟩ := serve_wire foundT g ys []
  obtain ⟨v, wholeAnswer, wholeState, foundV, othersV⟩ := serve_wire found h (xs ++ ys) []
  refine ⟨inst.emits xs, (inst.fed xs).emits ys, ?_, ?_, fun q => ?_⟩
  · rw [firstAnswer, secondAnswer, serve_nil]
  · rw [wholeAnswer, Instance.emits_append, serve_nil]
  · rw [firstState, secondState, wholeState, serve_nil, serve_nil]
    by_cases here : q = p
    · rw [here, foundU, foundV, Instance.fed_append]
    · rw [othersU q here, othersT q here, othersV q here]

/-- No run of these bytes long enough for a response has 0x03 as its second byte (R71, R125). -/
def NoResponseStarts (bytes : List Byte) : Prop :=
  ∀ i, i + 5 ≤ bytes.length → byteAt bytes (i + 1) ≠ Config.fcRead

theorem byteAt_append_right (s t : List Byte) (i : Nat) : byteAt (s ++ t) (s.length + i) = byteAt t i := by
  rw [byteAt, memRead, spaceBytes, List.getElem?_append_right (Nat.le_add_right _ _), Nat.add_sub_cancel_left]
  rfl

theorem NoResponseStarts.suffix {s t : List Byte} (noStart : NoResponseStarts (s ++ t)) : NoResponseStarts t := by
  intro i within
  rw [← byteAt_append_right s t]
  exact noStart (s.length + i) (by rw [List.length_append]; omega)

/-- Where no response can start, the tests do not all pass (R151). -/
theorem NoResponseStarts.verdict_ne_emit {mask : AddrMask} {held rest : List Byte}
    (noStart : NoResponseStarts (held ++ rest)) (n : Nat) : verdict mask held ≠ .emit n := by
  intro emits
  obtain ⟨length, -, function, within, -⟩ := verdict_emit emits
  have long : 5 ≤ held.length := (five_le_expectedLength held).trans (length ▸ within)
  refine noStart 0 (by rw [List.length_append]; omega) ?_
  rw [byteAt_append_left (by omega), function]

/-- Bytes in which no response can start, behind those held, emit nothing (R125, R138). -/
theorem feedMany_of_noResponseStarts {mask : AddrMask} (bytes : List Byte) : ∀ (i : Nat) {buf : List Byte},
    NoResponseStarts (buf ++ bytes) → (feedMany mask i buf bytes).emissions = [] := by
  induction bytes with
  | nil => exact fun _ _ _ => rfl
  | cons b rest ih =>
    intro i buf noStart
    obtain ⟨dropped, held, split, outcome⟩ := feed_cases mask buf b
    rw [List.append_cons, split, List.append_assoc] at noStart
    rcases outcome with ⟨fed, -⟩ | ⟨n, emits, -⟩
    · rw [feedMany_cons, fed]
      exact ih (i + 1) noStart.suffix
    · exact absurd emits (noStart.suffix.verdict_ne_emit n)

/-- In a request no response can start if none of its second to fifth bytes is 0x03 (R72, R138). -/
theorem noResponseStarts_requestBytes {a f : Byte} {x y crc : Half} (function : f ≠ Config.fcRead)
    (high : hi8 x ≠ Config.fcRead) (low : lo8 x ≠ Config.fcRead) (third : hi8 y ≠ Config.fcRead) :
    NoResponseStarts (requestBytes a f x y crc)
  | 0, _ => function
  | 1, _ => high
  | 2, _ => low
  | 3, _ => third
  | i + 4, within => absurd within (by simp [requestBytes])

/-- A chunk in which no response can start, arriving at an empty buffer, answers with no emission (R138). -/
theorem feedChunk_of_noResponseStarts {s : State} {mask : AddrMask} {bytes : List Byte}
    (found : s.instanceAt s.port = some { buf := [], addrMask := mask }) (noStart : NoResponseStarts bytes) :
    (feedChunk bytes s).answer = .emissions [] := by
  have nothing : (feedMany mask 0 [] bytes).emissions = [] := feedMany_of_noResponseStarts bytes 0 noStart
  rw [feedChunk_of_current found, State.reply_answer, nothing]

/-- Settles O40: the second to fifth bytes of the two requests are constants (R10), none of them 0x03. -/
theorem arrivingControlRequestsEmitNothing : Obligations.ArrivingControlRequestsEmitNothing := by
  intro s mask a c found
  constructor
  · have noStart : NoResponseStarts (requestBytes a Config.fcWrite Config.regUnlock Config.keyUnlock c) :=
      noResponseStarts_requestBytes (by decide) (by decide) (by decide) (by decide)
    exact ⟨_, exec_of_encode_wire rfl s, feedChunk_of_noResponseStarts found noStart⟩
  · have noStart : NoResponseStarts (requestBytes a Config.fcWrite Config.regSave Config.valSave c) :=
      noResponseStarts_requestBytes (by decide) (by decide) (by decide) (by decide)
    exact ⟨_, exec_of_encode_wire rfl s, feedChunk_of_noResponseStarts found noStart⟩

end Sys2Proof.Machine
end

/-! ### A step with nothing to perform (R135) -/

section
namespace Sys2Proof.Machine

/-- Settles O6: with no request the state is settled as it is. -/
theorem stepWithoutRequestChangesNothing : Obligations.StepWithoutRequestChangesNothing := by
  intro s host
  have settled : fetch s = .settled s := by rw [fetch, host]
  exact step_of_settled settled

end Sys2Proof.Machine
end

/-! ### The parser's answer on every operand: the class, the fields handed over, and the refusals (R152 to R157) -/

section
namespace Sys2Proof.Machine

/-- R152's test on the operand's bytes. -/
theorem wellFormedFrame_iff {f : List Byte} :
    wellFormedFrame f = true ↔ 5 ≤ f.length ∧ f.length = (byteAt f 2).toNat + 5 := by
  simp only [wellFormedFrame, Bool.and_eq_true, decide_eq_true_eq]
  rfl

theorem prsWordAnswer_of_malformed {f : List Byte} (malformed : wellFormedFrame f = false) (k : Half) :
    prsWordAnswer k f = .refused .malformedFrame := by
  rw [prsWordAnswer, malformed]
  rfl

theorem prsWordAnswer_of_noField {f : List Byte} {k : Half} (wf : wellFormedFrame f = true)
    (beyond : byteCount f / 2 ≤ k.toNat) : prsWordAnswer k f = .refused .fieldIndex := by
  simp [prsWordAnswer, wf, length_payloadOf wf, Nat.not_lt.2 beyond]

theorem prsClassAnswer_of_wellFormedFrame {f : List Byte} (wf : wellFormedFrame f = true) :
    prsClassAnswer f = .payloadClass (classOf f) := if_pos wf

theorem prsClassAnswer_of_malformed {f : List Byte} (malformed : wellFormedFrame f = false) :
    prsClassAnswer f = .refused .malformedFrame := if_neg (ne_true_of_eq_false malformed)

/-- The class by the byte count as a byte (R155, R156). -/
theorem classOf_eq (f : List Byte) : classOf f = if byteAt f 2 = 24#8 then .imu else .generic := by
  have sameTest : byteCount f = Config.imuPayloadLen ↔ byteAt f 2 = 24#8 := BitVec.toNat_inj (y := 24#8)
  simp only [classOf, sameTest]

@[simp] theorem length_handedFields (f : List Byte) : (handedFields f).length = byteCount f / 2 := by
  simp [handedFields, fieldCount]

theorem getElem?_handedFields {f : List Byte} {k : Nat} (within : k < byteCount f / 2) :
    (handedFields f)[k]? = some (payloadField f k) := by
  simp [handedFields, fieldCount, within]

/-- The name of a field of a 24-byte payload, by its index alone: three axes to each quantity (R154). -/
theorem imuField_eq : ∀ k < 12,
    imuField k = [ImuQuantity.acceleration, .angularRate, .magneticField, .angle][k / 3]?.map
      fun quantity => { quantity := quantity, axis := k % 3 } := by decide

/-- Settles O44: field `k` handed over is `payloadField k`, and so is the answer of `PRS.WORD`. -/
theorem handedFieldsAreTheWordsInPayloadOrder : Obligations.HandedFieldsAreTheWordsInPayloadOrder := by
  intro s wf
  refine ⟨length_handedFields s.data, fun k within => ?_⟩
  have answers : exec (.prsWord k) s = .next (s.reply (.word (payloadField s.data k.toNat))) := by
    rw [exec_prsWord, prsWordAnswer_of_field wf within]
  exact ⟨payloadField s.data k.toNat, getElem?_handedFields within, answers⟩

/-- Settles O42: the operand is tested before the index (R203). -/
theorem prsWordRefusesMalformedFramesAndMissingFields :
    Obligations.PrsWordRefusesMalformedFramesAndMissingFields := by
  intro s k
  constructor
  · intro malformed
    rw [exec_prsWord, prsWordAnswer_of_malformed malformed]
    rfl
  · intro wf beyond
    rw [exec_prsWord, prsWordAnswer_of_noField wf beyond]
    rfl

/-- Settles O43: the operand's two length conditions are R152's test. -/
theorem prsClassAnswersByPayloadLengthAlone : Obligations.PrsClassAnswersByPayloadLengthAlone := by
  intro s
  refine ⟨fun lengths => ?_, fun lengths => ?_, rfl, rfl⟩
  · rw [exec_prsClass, prsClassAnswer_of_wellFormedFrame (wellFormedFrame_iff.2 lengths), classOf_eq]
    rfl
  · have malformed : wellFormedFrame s.data = false := Bool.eq_false_iff.2 (mt wellFormedFrame_iff.1 lengths)
    rw [exec_prsClass, prsClassAnswer_of_malformed malformed]
    rfl

/-- Settles O46: a byte count of 24 gives 12 fields, each inside the payload. -/
theorem imuFieldsStandInOrderAtTheirOffsets : Obligations.ImuFieldsStandInOrderAtTheirOffsets := by
  intro s k wf count within
  have bytes : byteCount s.data = 24 := congrArg BitVec.toNat count
  have inside : 2 * k.toNat + 1 < (payloadOf s.data).length := by
    rw [length_payloadOf wf]
    omega
  have field : payloadField s.data k.toNat = sint16 (fieldAt s.data (fieldOffset k.toNat)) := by
    have second : 4 + 2 * k.toNat = fieldOffset k.toNat + 1 := by
      simp only [fieldOffset, Config.hdrLen]
      omega
    rw [payloadField_eq inside, second]
    rfl
  have quantity : k.toNat / 3 < 4 := by omega
  refine ⟨?_, rfl, ?_, ?_⟩
  · rw [exec_prsWord, prsWordAnswer_of_field wf (by omega), field]
    rfl
  · simp [imuField_eq k.toNat within, quantity]
  · simp [imuField_eq k.toNat within, Function.comp_def]

end Sys2Proof.Machine
end

/-! ### What a feed emits is a valid response, and so a well-formed parser operand (R127, R151, R152) -/

section
namespace Sys2Proof.Machine

/-- A candidate that passes every test is, up to its expected length, a valid response (R127, R137). -/
theorem validResponse_of_verdict_emit {mask : AddrMask} {buf : List Byte} {n : Nat}
    (emits : verdict mask buf = .emit n) : validResponse mask (buf.take n) := by
  obtain ⟨expected, address, function, complete, checksum⟩ := verdict_emit emits
  have long : 5 ≤ n := expected ▸ five_le_expectedLength buf
  refine ⟨?_, ?_, ?_, checksum⟩
  · rwa [byteAt_take (by omega)]
  · rwa [byteAt_take (by omega)]
  · rw [List.length_take_of_le complete, expectedLength, byteCount, byteAt_take (by omega)]
    exact expected

theorem validResponse_of_feed {mask : AddrMask} {buf f : List Byte} {b : Byte}
    (emits : (feed mask buf b).emitted = some f) : validResponse mask f := by
  obtain ⟨dropped, held, -, ⟨kept, -⟩ | ⟨n, passed, emitted⟩⟩ := feed_cases mask buf b
  · rw [kept] at emits
    exact nomatch emits
  · rw [emitted] at emits
    cases emits
    exact validResponse_of_verdict_emit passed

/-- A feed that returns a frame has emitted it (R121). -/
theorem validResponse_of_exec_asmFeed {s t : State} {b : Byte} {inst : Instance} {f : List Byte}
    (found : s.instanceAt s.port = some inst) (ends : exec (.asmFeed b) s = .next t)
    (returns : t.answer = .frame (some f)) : validResponse inst.addrMask f := by
  cases (exec_asmFeed_of_found found b).symm.trans ends
  exact validResponse_of_feed (Answer.frame.inj returns)

/-- Every valid response is a well-formed parser operand (R151, R152). -/
theorem wellFormedFrame_of_validResponse {mask : AddrMask} {f : List Byte} (valid : validResponse mask f) :
    wellFormedFrame f = true := by
  obtain ⟨-, -, length, -⟩ := valid
  exact wellFormedFrame_iff.2 ⟨length ▸ five_le_expectedLength f, length⟩

theorem sint16_bounds (v : Half) : -32768 ≤ sint16 v ∧ sint16 v ≤ 32767 := by
  have := v.isLt
  simp only [sint16]
  split_ifs <;> omega

/-- Settles O45: an emitted frame is a valid response, hence well-formed. -/
theorem everyEmittedFrameIsParsed : Obligations.EveryEmittedFrameIsParsed := by
  rintro s t u b inst f found ends returns rfl
  have wf : wellFormedFrame u.data = true :=
    wellFormedFrame_of_validResponse (validResponse_of_exec_asmFeed found ends returns)
  constructor
  · exact ⟨classOf u.data, by rw [exec_prsClass, prsClassAnswer_of_wellFormedFrame wf]; rfl⟩
  · intro k within
    have answers : exec (.prsWord k) u = .next (u.reply (.word (payloadField u.data k.toNat))) := by
      rw [exec_prsWord, prsWordAnswer_of_field wf within]
    exact ⟨payloadField u.data k.toNat, answers, sint16_bounds _⟩

end Sys2Proof.Machine
end

/-! ### Operations that only answer, of their data channel: CHK, PRS and ENC (R58, R176) -/

section
namespace Sys2Proof.Machine

/-- In every state the instruction answers `result` of the data channel, and changes nothing else. -/
def OnlyAnswers (i : Instr) (result : List Byte → Answer) : Prop :=
  ∀ s : State, exec i s = .next (s.reply (result s.data))

/-- What only answers, of its data channel, answers the same in two states with the same data. -/
theorem OnlyAnswers.same_answer {i : Instr} {result : List Byte → Answer} (only : OnlyAnswers i result) {s s' : State}
    (same : s.data = s'.data) :
    ∃ answer, exec i s = .next { s with answer := answer } ∧ exec i s' = .next { s' with answer := answer } :=
  ⟨result s.data, only s, by rw [same]; exact only s'⟩

/-- Settles O56: each of the operations only answers, what its own answer lemma says. -/
theorem statelessOperationsDependOnOperandsAlone : Obligations.StatelessOperationsDependOnOperandsAlone := by
  intro s s' len k a reg y same i listed
  simp only [List.mem_cons, List.not_mem_nil, or_false] at listed
  rcases listed with rfl | rfl | rfl | rfl | rfl | rfl | rfl
  · exact OnlyAnswers.same_answer (exec_chkCrc len) same
  · exact OnlyAnswers.same_answer (exec_prsWord k) same
  · exact OnlyAnswers.same_answer exec_prsClass same
  · exact OnlyAnswers.same_answer (result := fun _ => _) (exec_encRead a reg y) same
  · exact OnlyAnswers.same_answer (result := fun _ => _) (exec_encWrite a reg y) same
  · exact OnlyAnswers.same_answer (result := fun _ => _) (exec_encUnlock a) same
  · exact OnlyAnswers.same_answer (result := fun _ => _) (exec_encSave a) same

/-- An operation that only answers, served before other requests: its answer comes first, and they find the same
instances (R61, R77). -/
theorem OnlyAnswers.serve_requestOf {i : Instr} {result : List Byte → Answer} (only : OnlyAnswers i result)
    (wf : i.wf = true) (p : Nat) (data : List Byte) (rest : List Request) (s : State) :
    ∃ t : State, t.instances = s.instances ∧
      serve (requestOf p i data :: rest) s =
        { answers := (p, result data) :: (serve rest t).answers, state := (serve rest t).state } := by
  have stepped : step { s with host := [requestOf p i data] } =
      .next ((acceptRequest p data [] s).reply (result data)) :=
    (step_of_run (fetch_of_decode rfl (decode_encode wf))).trans (only _)
  exact ⟨(acceptRequest p data [] s).reply (result data), rfl, serve_cons stepped rest⟩

end Sys2Proof.Machine
end

/-! ### The write sequence answers the unlock, the write and the save request (R175, R241) -/

section
namespace Sys2Proof.Machine

theorem onlyAnswers_encWrite (a : Byte) (reg value : Half) :
    OnlyAnswers (.encWrite a reg value) fun _ => .request (buildRequest a Config.fcWrite reg value) := fun _ => rfl

theorem onlyAnswers_encUnlock (a : Byte) : OnlyAnswers (.encUnlock a) fun _ =>
    .request (buildRequest a Config.fcWrite Config.regUnlock Config.keyUnlock) := fun _ => rfl

theorem onlyAnswers_encSave (a : Byte) : OnlyAnswers (.encSave a) fun _ =>
    .request (buildRequest a Config.fcWrite Config.regSave Config.valSave) := fun _ => rfl

/-- `ENC.WRITESEQ` served from any state: its three answers in order, and the instances as they were. -/
theorem serve_encWriteSeq (p : Nat) (a : Byte) (reg value : Half) (s : State) :
    (serve (encWriteSeq p a reg value) s).answers =
      [(p, .request (buildRequest a Config.fcWrite Config.regUnlock Config.keyUnlock)),
       (p, .request (buildRequest a Config.fcWrite reg value)),
       (p, .request (buildRequest a Config.fcWrite Config.regSave Config.valSave))] ∧
    (serve (encWriteSeq p a reg value) s).state.instances = s.instances := by
  obtain ⟨t, keptT, unlocked⟩ := (onlyAnswers_encUnlock a).serve_requestOf rfl p [] _ s
  obtain ⟨u, keptU, written⟩ := (onlyAnswers_encWrite a reg value).serve_requestOf rfl p [] _ t
  obtain ⟨v, keptV, saved⟩ := (onlyAnswers_encSave a).serve_requestOf rfl p [] [] u
  rw [encWriteSeq, unlocked, written, saved, serve_nil]
  exact ⟨rfl, keptV.trans (keptU.trans keptT)⟩

/-- Bytes 6 and 7 of a request are its checksum field (R72). -/
theorem requestBytes_crc (a f : Byte) (x y crc : Half) :
    be16 (byteAt (requestBytes a f x y crc) 6) (byteAt (requestBytes a f x y crc) 7) = crc :=
  be16_hi8_lo8 crc

/-- A write request that an encoder built decodes to the row of its register and value, with the checksum it carries. -/
theorem decode_buildRequest_write (a : Byte) (reg value : Half) :
    decode (.wire .request (buildRequest a Config.fcWrite reg value)) =
      .ok (writeRequest a reg value (be16 (byteAt (buildRequest a Config.fcWrite reg value) 6)
        (byteAt (buildRequest a Config.fcWrite reg value) 7))) := by
  rw [buildRequest_eq_requestBytes, requestBytes_crc]
  exact decodeWireRequest_write a reg value _

/-- The unlock pair is the row `WIRE.UNLOCK` (R172; log entry 11). -/
theorem writeRequest_unlock (a : Byte) (crc : Half) :
    writeRequest a Config.regUnlock Config.keyUnlock crc = .wireUnlock a crc := rfl

/-- The save pair is the row `WIRE.SAVE` (R173; log entry 11). -/
theorem writeRequest_save (a : Byte) (crc : Half) :
    writeRequest a Config.regSave Config.valSave crc = .wireSave a crc := rfl

/-- Settles O52: the three answers are what `buildRequest` builds, which is what the host sends. -/
theorem writeSequenceAnswersUnlockWriteSave : Obligations.WriteSequenceAnswersUnlockWriteSave := by
  intro s p a reg value settleMs
  obtain ⟨answers, kept⟩ := serve_encWriteSeq p a reg value s
  refine ⟨_, _, _, answers, rfl, ?_, decode_buildRequest_write a reg value, ?_, kept⟩
  · rw [decode_buildRequest_write, writeRequest_unlock]
  · rw [decode_buildRequest_write, writeRequest_save]

end Sys2Proof.Machine
end

/-! ### Refusals: no step stops, and a port that was never reset refuses its feeds (R200, R203, R233) -/

section
namespace Sys2Proof.Machine

/-- No instruction stops: each case of `exec_cases` is a next state (R200; log entry 3). -/
theorem exec_next (i : Instr) (s : State) : ∃ t, exec i s = .next t := by
  rcases exec_cases i s with ⟨_, replies⟩ | ⟨_, _, -, -, feeds⟩ | ⟨_, _, -, feeds⟩
  · exact ⟨_, replies⟩
  · exact ⟨_, feeds⟩
  · exact ⟨_, feeds⟩

/-- Settles O4: a request is settled at once, or is an instruction to perform (`fetch`), and no instruction stops. -/
theorem noStepFaultsOrStops : Obligations.NoStepFaultsOrStops := by
  intro s
  cases fetched : fetch s with
  | settled t => exact ⟨t, step_of_settled fetched⟩
  | run i t =>
    rw [State.runs, step_of_run fetched]
    exact exec_next i t

variable {s : State}

theorem exec_asmFeed_of_none (absent : s.instanceAt s.port = none) (b : Byte) :
    exec (.asmFeed b) s = .next (s.refuse .notReset) := by
  have current : s.current = none := absent
  simp only [exec, execAsmFeed, current]

/-- One or more bytes arriving at a port that was never reset are refused as one request (log entry 20). -/
theorem feedChunk_cons_of_none (absent : s.instanceAt s.port = none) (b : Byte) (rest : List Byte) :
    feedChunk (b :: rest) s = s.refuse .notReset := by
  have current : s.current = none := absent
  simp only [feedChunk, current]
  rfl

/-- A frame on the wire has a first byte, so a port that was never reset refuses it (R203, R233). -/
theorem exec_of_encode_wire_of_none (absent : s.instanceAt s.port = none) {i : Instr} {f : WireFormat} {b : Byte}
    {rest : List Byte} (wire : encode i = .wire f (b :: rest)) : exec i s = .next (s.refuse .notReset) := by
  rw [exec_of_encode_wire wire, feedChunk_cons_of_none absent]

end Sys2Proof.Machine

namespace Sys2Proof.Machine

/-- Settles O20: with no instance at the port, the feed is refused. -/
theorem feedBeforeAnyResetIsRefused : Obligations.FeedBeforeAnyResetIsRefused :=
  fun _ b absent => exec_asmFeed_of_none absent b

/-- Settles O36: each of the five encodings is bytes of the wire that begin with the address. -/
theorem wireFramesBeforeAnyResetAreRefused : Obligations.WireFramesBeforeAnyResetAreRefused := by
  intro s a reg y c payload absent i listed
  simp only [List.mem_cons, List.not_mem_nil, or_false] at listed
  have startsWithAddress : ∃ f rest, encode i = .wire f (a :: rest) := by
    rcases listed with rfl | rfl | rfl | rfl | rfl <;> exact ⟨_, _, rfl⟩
  obtain ⟨f, rest, wire⟩ := startsWithAddress
  exact exec_of_encode_wire_of_none absent wire

end Sys2Proof.Machine
end

/-! ### The reset input (R230) -/

section
namespace Sys2Proof.Machine

theorem fetch_of_host_reset {s : State} {p : Nat} {addrs : AddrMask} {rest : List Request}
    (host : s.host = .reset p addrs :: rest) :
    fetch s = .settled (applyReset p addrs (acceptRequest p [] rest s)) := by
  simp only [fetch, host]

/-- Settles O1: the step settles the reset as it is fetched, and a reset writes the assembler at its own port. -/
theorem resetEmptiesTheBufferAndLoadsTheAddressSet : Obligations.ResetEmptiesTheBufferAndLoadsTheAddressSet := by
  intro s p addrs rest host
  have put : (applyReset p addrs (acceptRequest p [] rest s)).instances =
      putInstance p { buf := [], addrMask := addrs } s.instances := applyReset_instances p addrs _
  refine ⟨_, step_of_settled (fetch_of_host_reset host), ?here, ?elsewhere, ?answer, ?host⟩
  case here => exact State.instanceAt_of_put_same put
  case elsewhere => exact fun q other => State.instanceAt_of_put_other put other
  case answer => exact applyReset_answer p addrs _
  case host => exact applyReset_host p addrs _

end Sys2Proof.Machine
end

/-! ### The checksum steps are injective: zero residue and single-byte changes (R100, R101, R103, R106, R139) -/

section
namespace Sys2Proof

/-- A 16-bit value is told by its two bytes (R14, R74). -/
theorem eq_be16_iff {v : Half} {h l : Byte} : v = be16 h l ↔ h = hi8 v ∧ l = lo8 v := by
  constructor
  · rintro rfl
    rw [hi8_be16, lo8_be16]
    exact ⟨rfl, rfl⟩
  · rintro ⟨rfl, rfl⟩
    exact (be16_hi8_lo8 v).symm

end Sys2Proof

namespace Sys2Proof.Machine

/-- Settles O13: the tables hold eight shifts of the direct form each. -/
theorem tableChecksumIsTheDirectFormByteSwapped : Obligations.TableChecksumIsTheDirectFormByteSwapped :=
  crc_eq_directCrc

/-- No byte stands twice in `ROM_LO` (R100). -/
theorem romLo_nodup : romLo.Nodup := by decide +kernel

theorem romByte_romLo_inj {i j : Byte} : romByte .romLo i = romByte .romLo j ↔ i = j := by
  have inTable (k : Byte) : k.toNat < romLo.length := romLo_length ▸ k.isLt
  have entry (k : Byte) : romByte .romLo k = romLo[k.toNat]'(inTable k) := by
    simp [romByte, memRead, spaceBytes, inTable k]
  rw [entry, entry, romLo_nodup.getElem_inj_iff, BitVec.toNat_inj]

/-- The low accumulator left by a step tells the table index, and the high one then tells the low one before it. -/
theorem crcStep_eq_iff {acc acc' : Acc} {b b' : Byte} :
    crcStep acc b = crcStep acc' b' ↔ acc.hi ^^^ b = acc'.hi ^^^ b' ∧ acc.lo = acc'.lo := by
  simp only [crcStep, Acc.mk.injEq, romByte_romLo_inj]
  constructor
  · rintro ⟨high, index⟩
    rw [index] at high
    exact ⟨index, by simpa using high⟩
  · rintro ⟨index, low⟩
    rw [index, low]
    exact ⟨rfl, rfl⟩

theorem eq_of_crcStep_eq {acc acc' : Acc} {b : Byte} (same : crcStep acc b = crcStep acc' b) : acc = acc' := by
  obtain ⟨high, low⟩ := crcStep_eq_iff.1 same
  cases acc
  cases acc'
  simp_all

/-- The bytes behind a difference keep the accumulators apart. -/
theorem eq_of_crcAcc_eq (s : List Byte) : ∀ {acc acc' : Acc}, crcAcc acc s = crcAcc acc' s → acc = acc' := by
  induction s with
  | nil => exact id
  | cons b rest ih => exact fun same => eq_of_crcStep_eq (ih same)

/-- Both accumulators at 0: the residue of a stamped message (R106). -/
def accZero : Acc := { hi := 0#8, lo := 0#8 }

theorem crc_eq_zero_iff {s : List Byte} : crc s = 0x0000#16 ↔ crcAcc accInit s = accZero := by
  constructor
  · intro zero
    have high : (crcAcc accInit s).hi = accZero.hi := by rw [← hi8_crc, zero]; rfl
    have low : (crcAcc accInit s).lo = accZero.lo := by rw [← lo8_crc, zero]; rfl
    exact congrArg₂ Acc.mk high low
  · intro zero
    rw [crc, zero]
    rfl

/-- A step by the high accumulator's own byte moves the low one up: both tables hold 0 at index 0 (R100). -/
theorem crcStep_hi_self (acc : Acc) : crcStep acc acc.hi = { hi := acc.lo, lo := 0#8 } := by
  have tables : romByte .romHi 0#8 = 0#8 ∧ romByte .romLo 0#8 = 0#8 := by decide +kernel
  simp [crcStep, tables]

/-- Two bytes take the accumulators to 0 exactly where they are the accumulators, high byte first (R106). -/
theorem crcAcc_pair_eq_zero_iff {acc : Acc} {x y : Byte} :
    crcAcc acc [x, y] = accZero ↔ x = acc.hi ∧ y = acc.lo := by
  have stamped : crcAcc acc [acc.hi, acc.lo] = accZero := by
    simp only [crcAcc_cons, crcAcc_nil, crcStep_hi_self]
    exact crcStep_hi_self { hi := acc.lo, lo := 0#8 }
  constructor
  · intro zero
    obtain ⟨second, low⟩ := crcStep_eq_iff.1 (zero.trans stamped.symm)
    have first : x = acc.hi := (BitVec.xor_right_inj _).1 (romByte_romLo_inj.1 low)
    subst first
    exact ⟨rfl, (BitVec.xor_right_inj _).1 second⟩
  · rintro ⟨rfl, rfl⟩
    exact stamped

theorem crc_append_pair_eq_zero_iff {m : List Byte} {x y : Byte} :
    crc (m ++ [x, y]) = 0x0000#16 ↔ x = hi8 (crc m) ∧ y = lo8 (crc m) := by
  rw [crc_eq_zero_iff, crcAcc_append, crcAcc_pair_eq_zero_iff, hi8_crc, lo8_crc]

/-- `CRC_OK` is the test for residue zero (R105, R106). -/
theorem crcOk_iff_crc_eq_zero {f : List Byte} (long : 2 ≤ f.length) : crcOk f = true ↔ crc f = 0x0000#16 := by
  obtain ⟨n, length⟩ : ∃ n, f.length = n + 2 := ⟨f.length - 2, by omega⟩
  have frame : f.take n ++ [byteAt f n, byteAt f (n + 1)] = f := by
    simpa [byteAt, memRead, spaceBytes] using take_append_last_two length
  calc crcOk f = true
      ↔ crc (f.take n) = be16 (byteAt f n) (byteAt f (n + 1)) := by
        simp [crcOk, checksumField, fieldAt, length, Config.crcLen]
    _ ↔ byteAt f n = hi8 (crc (f.take n)) ∧ byteAt f (n + 1) = lo8 (crc (f.take n)) := eq_be16_iff
    _ ↔ crc f = 0x0000#16 := by rw [← crc_append_pair_eq_zero_iff, frame]

/-- Settles O14: a stamp is the two bytes that leave residue zero. -/
theorem stampedMessageHasZeroResidue : Obligations.StampedMessageHasZeroResidue :=
  ⟨fun _ => crc_append_pair_eq_zero_iff.2 ⟨rfl, rfl⟩, fun _ => crcOk_iff_crc_eq_zero⟩

/-- Where a byte is overwritten and the accumulators come out the same, it was that byte already: its own step tells it
from the index, and the steps behind keep the accumulators apart. -/
theorem eq_of_crcAcc_set_eq {acc : Acc} {f : List Byte} {j : Nat} {b : Byte} (within : j < f.length)
    (same : crcAcc acc (f.set j b) = crcAcc acc f) : b = byteAt f j := by
  have byte : byteAt f j = f[j] := by simp [byteAt, memRead, spaceBytes, within]
  have split : f = f.take j ++ f[j] :: f.drop (j + 1) := by simp
  rw [List.set_eq_take_append_cons_drop, if_pos within] at same
  conv at same => rhs; rw [split]
  rw [crcAcc_append, crcAcc_append, crcAcc_cons, crcAcc_cons] at same
  obtain ⟨index, -⟩ := crcStep_eq_iff.1 (eq_of_crcAcc_eq _ same)
  rw [byte]
  simpa using index

/-- Settles O17: two frames that differ in one byte cannot both have residue zero. -/
theorem checksumDetectsEverySingleByteChange : Obligations.ChecksumDetectsEverySingleByteChange := by
  intro f j b long passes within changed
  have zero := crc_eq_zero_iff.1 ((crcOk_iff_crc_eq_zero long).1 passes)
  rw [Bool.eq_false_iff]
  intro passesChanged
  have zeroChanged := crc_eq_zero_iff.1 ((crcOk_iff_crc_eq_zero (by simpa using long)).1 passesChanged)
  exact changed (eq_of_crcAcc_set_eq within (zeroChanged.trans zero.symm)).symm

end Sys2Proof.Machine
end

/-! ### A settled buffer is a fixed point of the settle loop, and is held byte by byte (R126, R130, R133, R138) -/

section
namespace Sys2Proof.Machine

/-- Settles O19: `len(BUF) + 1` iterations are more than `BUF` has bytes. -/
theorem settleLoopReturnsWithinItsBound : Obligations.SettleLoopReturnsWithinItsBound :=
  fun mask buf => ⟨settle mask buf, fun _ => settleLoop_eq_settle mask buf (by omega)⟩

variable {mask : AddrMask}

/-- Where the settle loop may stop with NONE, the buffer is settled (R125, R126, R130 (i)). -/
theorem stable_of_verdict {buf : List Byte}
    (stops : buf = [] ∨ verdict mask buf = .functionPending ∨ verdict mask buf = .incomplete) :
    Settled.stable mask buf := by
  rcases stops with rfl | pending | incomplete
  · exact .inl rfl
  · obtain ⟨address, short⟩ := verdict_functionPending pending
    exact .inr ⟨address, .inl short⟩
  · obtain ⟨address, candidate⟩ := verdict_incomplete incomplete
    exact .inr ⟨address, .inr candidate⟩

/-- A settled buffer is left as it is (R130 (i)). -/
theorem settle_of_stable {buf : List Byte} (stable : Settled.stable mask buf) :
    settle mask buf = { emitted := none, buf := buf } := by
  by_cases nonempty : buf = []
  · rw [nonempty, settle_nil]
  · obtain ⟨address, candidate⟩ := stable.resolve_left nonempty
    by_cases short : buf.length ≤ 2
    · exact settle_of_pending (.inl (verdict_of_functionPending nonempty address short))
    · obtain ⟨function, incomplete⟩ := candidate.resolve_left short
      exact settle_of_pending (.inr (verdict_of_incomplete address (Nat.lt_of_not_le short) function incomplete))

/-- The first bytes of a settled buffer are settled. -/
theorem Settled.stable.of_append {held rest : List Byte} (stable : Settled.stable mask (held ++ rest)) :
    Settled.stable mask held := by
  by_cases nonempty : held = []
  · exact .inl nonempty
  · have first : 0 < held.length := List.length_pos_of_ne_nil nonempty
    obtain ⟨address, candidate⟩ := stable.resolve_left (by simp [nonempty])
    rw [byteAt_append_left first] at address
    by_cases short : held.length ≤ 2
    · exact .inr ⟨address, .inl short⟩
    · obtain ⟨function, incomplete⟩ := candidate.resolve_left (by rw [List.length_append]; omega)
      rw [byteAt_append_left (by omega)] at function
      rw [expectedLength_append (by omega), List.length_append] at incomplete
      exact .inr ⟨address, .inr ⟨function, by omega⟩⟩

/-- What one feed leaves (R130): with NONE a settled buffer, with a frame the remainder behind it. -/
theorem feed_leaves {buf : List Byte} (bound : buf.length < Config.bufCap) (b : Byte) :
    ((feed mask buf b).emitted = none → Settled.stable mask (feed mask buf b).buf) ∧
      ∀ f, (feed mask buf b).emitted = some f →
        ∃ dropped, buf ++ [b] = dropped ++ f ++ (feed mask buf b).buf ∧ (feed mask buf b).buf.length ≤ 255 := by
  obtain ⟨dropped, held, split, ⟨fed, stops⟩ | ⟨n, passed, fed⟩⟩ := feed_cases mask buf b <;> rw [fed]
  · exact ⟨fun _ => stable_of_verdict stops, fun _ emits => nomatch emits⟩
  · refine ⟨fun emits => (nomatch emits), fun f emits => ⟨dropped, ?_, ?_⟩⟩
    · cases emits
      rw [split, List.append_assoc, List.take_append_drop]
    · obtain ⟨expected, -, -, -, -⟩ := verdict_emit passed
      have frame := five_le_expectedLength held
      have total := congrArg List.length split
      simp only [List.length_append, List.length_singleton] at total
      simp only [Config.bufCap] at bound
      rw [List.length_drop]
      omega

end Sys2Proof.Machine

namespace Sys2Proof.Machine

/-- Settles O21: `feed_leaves`, and the bound of every feed (R130 (iii)). -/
theorem feedLeavesASettledBufferOrTheRemainder : Obligations.FeedLeavesASettledBufferOrTheRemainder := by
  intro s t b inst inst' found bound ends foundAfter
  replace bound : inst.buf.length < Config.bufCap := Nat.lt_succ_of_le bound
  cases (exec_asmFeed_of_found found b).symm.trans ends
  cases (State.instanceAt_afterFeed_same s _ _).symm.trans foundAfter
  obtain ⟨silent, emitting⟩ := feed_leaves (mask := inst.addrMask) bound b
  refine ⟨rfl, fun answersNone => ⟨silent (Answer.frame.inj answersNone), ?_⟩,
    fun f answersFrame => emitting f (Answer.frame.inj answersFrame)⟩
  exact Nat.le_of_lt_succ (length_feed inst.addrMask bound b)

end Sys2Proof.Machine
end

/-! ### Feeds that answer NONE, and the feed that answers (R136, R137) -/

section
namespace Sys2Proof.Machine

/-- The answers to a concatenation are those to its parts, one after the other (R131). -/
theorem feedAnswers_append (mask : AddrMask) (xs ys : List Byte) : ∀ buf : List Byte,
    feedAnswers mask buf (xs ++ ys) =
      feedAnswers mask buf xs ++ feedAnswers mask (feedMany mask 0 buf xs).buf ys := by
  induction xs with
  | nil => exact fun _ => rfl
  | cons b rest ih =>
    intro buf
    rw [List.cons_append, feedAnswers, ih, feedAnswers, List.cons_append, feedMany_cons,
      feedMany_buf_index mask rest (0 + 1) 0]

/-- Every feed of these bytes answers NONE, and they leave `after` held. -/
def FedInSilence (mask : AddrMask) (buf bytes after : List Byte) : Prop :=
  feedAnswers mask buf bytes = List.replicate bytes.length none ∧ (feedMany mask 0 buf bytes).buf = after

theorem FedInSilence.nil (mask : AddrMask) (buf : List Byte) : FedInSilence mask buf [] buf := ⟨rfl, rfl⟩

theorem FedInSilence.cons {mask : AddrMask} {buf next rest after : List Byte} {b : Byte}
    (first : feed mask buf b = { emitted := none, buf := next }) (later : FedInSilence mask next rest after) :
    FedInSilence mask buf (b :: rest) after := by
  obtain ⟨answers, held⟩ := later
  constructor
  · rw [feedAnswers, first, answers, List.length_cons, List.replicate_succ]
  · rw [feedMany_cons, first, feedMany_buf_index mask rest (0 + 1) 0, held]

/-- Bytes that keep the buffer settled are all held (R125, R126). -/
theorem fedInSilence_of_stable {mask : AddrMask} (bytes : List Byte) : ∀ {buf : List Byte},
    Settled.stable mask (buf ++ bytes) → FedInSilence mask buf bytes (buf ++ bytes) := by
  induction bytes with
  | nil => exact fun {buf} _ => by rw [List.append_nil]; exact .nil mask buf
  | cons b rest ih =>
    intro buf stable
    rw [List.append_cons] at stable ⊢
    exact .cons (settle_of_stable stable.of_append) (ih stable)

/-- Bytes outside the address set are dropped one by one (R123, R136). -/
theorem fedInSilence_of_wrongAddresses {mask : AddrMask} (g : List Byte) (wrong : ∀ b ∈ g, inAddrs mask b = false) :
    FedInSilence mask [] g [] := by
  induction g with
  | nil => exact .nil mask []
  | cons b rest ih =>
    obtain ⟨first, others⟩ := List.forall_mem_cons.1 wrong
    have dropped : feed mask [] b = { emitted := none, buf := [] } := by
      rw [feed, bufAppend, List.nil_append, settle_singleton, first]
      rfl
    exact .cons dropped (ih others)

theorem emissionsOf_replicate_none (p n : Nat) : ∀ i, emissionsOf i (List.replicate n (p, .frame none)) = [] := by
  induction n with
  | zero => exact fun _ => rfl
  | succ n ih => exact fun i => ih (i + 1)

/-- Bytes fed in silence emit nothing. -/
theorem FedInSilence.feedMany_eq {mask : AddrMask} {buf bytes after : List Byte}
    (silent : FedInSilence mask buf bytes after) : feedMany mask 0 buf bytes = { emissions := [], buf := after } := by
  obtain ⟨answers, held⟩ := silent
  have emissions : (feedMany mask 0 buf bytes).emissions = [] := by
    rw [← emissionsOf_feedAnswers 0, answers, List.map_replicate, emissionsOf_replicate_none]
  exact congrArg₂ Fed.mk emissions held

/-- A stream that begins with bytes fed in silence is answered NONE for each of them, and then as the rest of the stream
is from what they left. -/
theorem serve_asmFeedN_of_fedInSilence {s : State} {p : Nat} {mask : AddrMask} {buf xs after : List Byte}
    (found : s.instanceAt p = some { buf := buf, addrMask := mask }) (silent : FedInSilence mask buf xs after)
    (ys : List Byte) :
    (serve (asmFeedN p (xs ++ ys)) s).answers =
        List.replicate xs.length (p, .frame none) ++ (feedAnswers mask after ys).map (fun e => (p, .frame e)) ∧
      (serve (asmFeedN p (xs ++ ys)) s).state.instanceAt p =
        some { buf := (feedMany mask 0 after ys).buf, addrMask := mask } ∧
      ∀ q, q ≠ p → (serve (asmFeedN p (xs ++ ys)) s).state.instanceAt q = s.instanceAt q := by
  obtain ⟨answers, here, elsewhere⟩ := serve_asmFeedN p mask (xs ++ ys) s buf found
  obtain ⟨silence, held⟩ := silent
  refine ⟨?_, ?_, elsewhere⟩
  · rw [answers, feedAnswers_append, silence, held, List.map_append, List.map_replicate]
  · rw [here, feedMany_append, held, feedMany_buf_index mask ys _ 0]

/-- Settles O25: what the garbage leaves is the empty buffer, from which the stream is then answered. -/
theorem leadingGarbageChangesNothing : Obligations.LeadingGarbageChangesNothing := by
  intro s p mask g bytes found wrong
  obtain ⟨answers, here, elsewhere⟩ := serve_asmFeedN p mask bytes s [] found
  obtain ⟨answersBehind, hereBehind, elsewhereBehind⟩ :=
    serve_asmFeedN_of_fedInSilence found (fedInSilence_of_wrongAddresses g wrong) bytes
  rw [answersBehind, answers]
  refine ⟨rfl, fun q => ?_⟩
  by_cases same : q = p
  · rw [same, hereBehind, here]
  · rw [elsewhereBehind q same, elsewhere q same]

/-- The last byte of a valid response emits it (R127, R137). -/
theorem feed_last_of_validResponse {mask : AddrMask} {held : List Byte} {b : Byte}
    (valid : validResponse mask (held ++ [b])) :
    feed mask held b = { emitted := some (held ++ [b]), buf := [] } := by
  have emits := verdict_of_validResponse valid []
  rw [List.append_nil] at emits
  rw [feed, bufAppend, settle_of_emit emits, List.take_length, List.drop_length]

/-- Settles O24: all bytes but the last keep the buffer settled, and the last completes the response. -/
theorem validResponseIsEmittedAtItsLastByte : Obligations.ValidResponseIsEmittedAtItsLastByte := by
  intro s p mask f found valid
  have long : 5 ≤ f.length := by
    obtain ⟨-, -, length, -⟩ := valid
    exact length ▸ five_le_expectedLength f
  obtain ⟨held, last, rfl⟩ : ∃ held last, f = held ++ [last] :=
    ⟨_, _, (List.dropLast_append_getLast (List.ne_nil_of_length_pos (by omega))).symm⟩
  rw [List.length_append, List.length_singleton] at long ⊢
  have stable : Settled.stable mask held :=
    stable_of_verdict (.inr (verdict_of_partial_validResponse valid (List.ne_nil_of_length_pos (by omega)) (by simp)))
  obtain ⟨answers, here, -⟩ :=
    serve_asmFeedN_of_fedInSilence (after := held) found (fedInSilence_of_stable held (buf := []) stable) [last]
  have completed := feed_last_of_validResponse valid
  constructor
  · rw [answers, feedAnswers, completed]
    rfl
  · rw [here, feedMany_cons, completed]
    rfl

/-- Settles O22: an emitted frame is a valid response, hence a well-formed record. -/
theorem emittedFramesAreValid : Obligations.EmittedFramesAreValid := by
  intro s t b inst f found ends returns
  have valid := validResponse_of_exec_asmFeed found ends returns
  have wf := wellFormedFrame_of_validResponse valid
  obtain ⟨address, function, length, checksum⟩ := valid
  exact ⟨address, function, length_payloadOf wf, length.symm, (beq_iff_eq.1 checksum).symm⟩

end Sys2Proof.Machine
end

/-! ### Read requests that look like responses (R138) -/

section
namespace Sys2Proof.Machine

/-- A read request of register page 3 has the shape of a response with three payload bytes (R71, R72). -/
theorem validResponse_readRequest {mask : AddrMask} {a : Byte} {reg : Half} (configured : inAddrs mask a = true)
    (page : hi8 reg = 0x03#8) (count : Half) : validResponse mask (buildRequest a 0x03#8 reg count) := by
  have expected : expectedLength (buildRequest a 0x03#8 reg count) = (hi8 reg).toNat + 5 := rfl
  refine ⟨configured, rfl, ?_, crcOk_append_crcBytes _⟩
  rw [expected, page]
  rfl

/-- Settles O38: the request's bytes are a valid response. -/
theorem readRequestOfRegisterPageThreeIsEmitted : Obligations.ReadRequestOfRegisterPageThreeIsEmitted := by
  intro s mask a reg count found configured page
  have fed := feedMany_of_validResponse (validResponse_readRequest configured page count)
  have wire : encode (.wireReadReq a reg count (crc [a, 0x03#8, hi8 reg, lo8 reg, hi8 count, lo8 count])) =
      .wire .request (buildRequest a 0x03#8 reg count) := rfl
  refine ⟨_, exec_of_encode_wire wire s, ?_, rfl, ?_⟩
  · rw [feedChunk_of_current found, State.reply_answer, fed]
    rfl
  · rw [feedChunk_of_current found, State.instanceAt_reply, State.instanceAt_setInstance_same, fed]

/-- A read request of a higher page is shorter than the response that it seems to begin (R138). -/
theorem stable_readRequest {mask : AddrMask} {a : Byte} {reg : Half} (configured : inAddrs mask a = true)
    (page : 3 < (hi8 reg).toNat) (count c : Half) :
    Settled.stable mask (requestBytes a Config.fcRead reg count c) := by
  have expected : expectedLength (requestBytes a Config.fcRead reg count c) = (hi8 reg).toNat + 5 := rfl
  have length : (requestBytes a Config.fcRead reg count c).length = 8 := rfl
  exact .inr ⟨configured, .inr ⟨rfl, by omega⟩⟩

/-- Settles O39: the whole request is a settled buffer. -/
theorem readRequestOfAHigherPageStaysPending : Obligations.ReadRequestOfAHigherPageStaysPending := by
  intro s mask a reg count c found configured page
  have silent : FedInSilence mask [] (requestBytes a Config.fcRead reg count c) _ :=
    fedInSilence_of_stable _ (stable_readRequest configured page count c)
  refine ⟨_, exec_of_encode_wire rfl s, ?_, ?_⟩
  · rw [feedChunk_of_current found, State.reply_answer, silent.feedMany_eq]
  · rw [feedChunk_of_current found, State.instanceAt_reply, State.instanceAt_setInstance_same, silent.feedMany_eq]
    rfl

end Sys2Proof.Machine
end

/-! ### The emitted frames as runs of the stream (R134) -/

section
namespace Sys2Proof.Machine

/-- The stream is the frames of these emissions in order, each behind a gap, then bytes dropped and bytes held (R134). -/
def RunsOf (stream : List Byte) (emissions : List (Nat × List Byte)) (held : List Byte) : Prop :=
  ∃ (gaps : List (List Byte)) (dropped : List Byte), gaps.length = emissions.length ∧
    stream = (List.zipWith (fun g e => g ++ e.2) gaps emissions).flatten ++ dropped ++ held

theorem RunsOf.nil (held : List Byte) : RunsOf held [] held := ⟨[], [], rfl, rfl⟩

/-- A frame emitted before all others, behind a gap. -/
theorem RunsOf.cons_emission {stream held : List Byte} {emissions : List (Nat × List Byte)}
    (runs : RunsOf stream emissions held) (gap : List Byte) (e : Nat × List Byte) :
    RunsOf (gap ++ (e.2 ++ stream)) (e :: emissions) held := by
  obtain ⟨gaps, dropped, count, rfl⟩ := runs
  exact ⟨gap :: gaps, dropped, by simp [count], by simp⟩

/-- Bytes dropped before all others widen the first gap, or the last where nothing is emitted. -/
theorem RunsOf.append_dropped {stream held : List Byte} {emissions : List (Nat × List Byte)}
    (runs : RunsOf stream emissions held) (more : List Byte) : RunsOf (more ++ stream) emissions held := by
  obtain ⟨gaps, dropped, count, rfl⟩ := runs
  match gaps, emissions, count with
  | [], [], _ => exact ⟨[], more ++ dropped, rfl, by simp⟩
  | gap :: gaps, e :: emissions, count => exact ⟨(more ++ gap) :: gaps, dropped, count, by simp⟩

/-- What is held and then fed is runs of frames, in the order of their emission (R134). -/
theorem runsOf_feedMany (mask : AddrMask) (bytes : List Byte) : ∀ (i : Nat) (buf : List Byte),
    RunsOf (buf ++ bytes) (feedMany mask i buf bytes).emissions (feedMany mask i buf bytes).buf := by
  induction bytes with
  | nil => exact fun _ buf => by rw [List.append_nil]; exact .nil buf
  | cons b rest ih =>
    intro i buf
    obtain ⟨dropped, held, split, ⟨fed, -⟩ | ⟨n, -, fed⟩⟩ := feed_cases mask buf b
    all_goals rw [feedMany_cons, fed, List.append_cons, split, List.append_assoc]
    · exact (ih (i + 1) held).append_dropped dropped
    · have runs := (ih (i + 1) (held.drop n)).cons_emission dropped (i, held.take n)
      rwa [← List.append_assoc (held.take n), List.take_append_drop] at runs

/-- The closing bytes of the emissions are among the bytes fed, and rise (R131, R134). -/
theorem feedMany_indices (mask : AddrMask) (bytes : List Byte) : ∀ (i : Nat) (buf : List Byte),
    (feedMany mask i buf bytes).emissions.Pairwise (fun x y => x.1 < y.1) ∧
      ∀ e ∈ (feedMany mask i buf bytes).emissions, i ≤ e.1 ∧ e.1 < i + bytes.length := by
  induction bytes with
  | nil => exact fun _ _ => ⟨.nil, fun _ listed => nomatch listed⟩
  | cons b rest ih =>
    intro i buf
    obtain ⟨rising, bounds⟩ := ih (i + 1) (feed mask buf b).buf
    have later : ∀ e ∈ (feedMany mask (i + 1) (feed mask buf b).buf rest).emissions,
        i < e.1 ∧ e.1 < i + (b :: rest).length := by
      intro e listed
      have := bounds e listed
      rw [List.length_cons]
      omega
    rw [feedMany_cons]
    cases (feed mask buf b).emitted with
    | none => exact ⟨rising, fun e listed => ⟨(later e listed).1.le, (later e listed).2⟩⟩
    | some f =>
      refine ⟨List.pairwise_cons.2 ⟨fun e listed => (later e listed).1, rising⟩, List.forall_mem_cons.2 ⟨?_, ?_⟩⟩
      · simp
      · exact fun e listed => ⟨(later e listed).1.le, (later e listed).2⟩

/-- Settles O23: `runsOf_feedMany` and `feedMany_indices`, read off the served feeds. -/
theorem framesAreDisjointRunsOfTheStreamInOrder : Obligations.FramesAreDisjointRunsOfTheStreamInOrder := by
  intro s p bytes inst found
  obtain ⟨answers, here, -⟩ := serve_asmFeedN p inst.addrMask bytes s inst.buf found
  obtain ⟨gaps, dropped, count, runs⟩ := runsOf_feedMany inst.addrMask bytes 0 inst.buf
  obtain ⟨rising, bounds⟩ := feedMany_indices inst.addrMask bytes 0 inst.buf
  rw [answers, emissionsOf_feedAnswers]
  refine ⟨_, gaps, dropped, here, count, runs, rising, fun e listed => ?_⟩
  obtain ⟨-, within⟩ := bounds e listed
  rwa [Nat.zero_add] at within

end Sys2Proof.Machine
end

/-! ### The words that the spec writes out (95_test_vectors.md E5 and section 3) -/

section
namespace Sys2Proof

/-- Settles O11: each word is the encoding of the well-formed instruction that the spec names. -/
theorem wordsTheSpecWritesOutDecode : Obligations.WordsTheSpecWritesOutDecode := by
  have decodes {c : Code} {i : Instr} (wf : i.wf = true) (encoded : encode i = c) : decode c = .ok i :=
    encoded ▸ decode_encode wf
  exact ⟨decodes rfl rfl, decodes rfl rfl, decodes rfl rfl, decodes rfl rfl, decodes rfl rfl, decodes rfl rfl,
    decodes rfl rfl, decodes rfl rfl, decodes rfl rfl, decodes rfl rfl, decodes rfl rfl⟩

end Sys2Proof
end
